-- ==== Sys2Proof/Word.lean ====
section
/-! DEFINITION. The two word types of the CORE (00_scope.md R6, R7): bytes and 16-bit addresses. -/

namespace Sys2Proof

/-- `u8`: the width of A, STATUS, a memory byte and an opcode byte (00_scope.md R6, R7). -/
abbrev Byte := BitVec 8

/-- `u16`: the width of PC, SP, the address operand and a cache tag (00_scope.md R6, R7). -/
abbrev Addr := BitVec 16

end Sys2Proof
end

