-- ==== Sys2Proof/Config.lean ====
section
/-! DEFINITION. The implementation parameters of 00_scope.md R6: the three that have alternatives are fields of
`Params`; every numeric literal is a named constant with the value the spec takes for this hardware
(93_implementation_defined.md I12). None of them is state (10_state.md R20). -/

namespace Sys2Proof.Config

/-- `carry_mode`: which carry ADC and SBC write (40_fetch_execute.md R118, 92_eei_decisions.md D1). -/
inductive CarryMode where
  /-- C is written 0: the spec's default. -/
  | truncated
  /-- C is the carry or borrow of the exact result. -/
  | wide
deriving DecidableEq, Repr

/-- `opcode_decode`: how the opcode byte is read (30_encoding.md R93, 92_eei_decisions.md D2). -/
inductive OpcodeDecode where
  /-- the whole byte is the opcode: the spec's default -/
  | fullByte
  /-- bits 3..0 are the opcode, bits 7..4 are ignored -/
  | lowNibble
  /-- a byte with bits 7..4 not all zero has no meaning -/
  | refuseHigh
deriving DecidableEq, Repr

/-- `sbc_o_mode`: SBC's overflow expression (40_fetch_execute.md R119, 92_eei_decisions.md D4). -/
inductive SbcOMode where
  /-- ADC's expression unchanged: the spec's default -/
  | adcStructure
  /-- the two's-complement overflow of the subtraction -/
  | trueSigned
deriving DecidableEq, Repr

/-- The parameters of one model instance that have alternatives (00_scope.md R6). -/
structure Params where
  carryMode    : CarryMode
  opcodeDecode : OpcodeDecode
  sbcOMode     : SbcOMode
deriving DecidableEq, Repr

/-- The defaults of 00_scope.md R6. -/
def Params.spec : Params :=
  { carryMode := .truncated, opcodeDecode := .fullByte, sbcOMode := .adcStructure }

/-- `MEM_SIZE`: addresses from here on are out of range (20_memory.md R50). -/
def memSize : Nat := 2048
/-- The end of `SEG_INSTR` and the start of `SEG_STACK` (20_memory.md R51). -/
def stackStart : Nat := 256
/-- The end of `SEG_STACK` and the start of `SEG_DATA` (20_memory.md R51). -/
def dataStart : Nat := 512
/-- `OOR_READ_VALUE`: what an out-of-range read returns (20_memory.md R53). -/
def oorReadValue : Byte := 0xFF#8
/-- What a byte of memory that nothing has written reads as: "all bytes zero-initialized" (10_state.md R34). -/
def resetByte : Byte := 0x00#8
/-- `INSTR_LEN`: what the loop adds to PC (40_fetch_execute.md R112). -/
def instrLen : Addr := 3#16
/-- `PC_RESET` (10_state.md R21). -/
def pcReset : Addr := 0#16
/-- `SP_RESET`, the first stack address (10_state.md R22). -/
def spReset : Addr := 256#16
/-- The reset value of A (10_state.md R23). -/
def aReset : Byte := 0#8
/-- The reset value of STATUS (10_state.md R24). -/
def statusReset : Byte := 0#8

/-- STATUS bit of N (10_state.md R24, R25). -/
def bitN : Nat := 0
/-- STATUS bit of O (10_state.md R24, R26). -/
def bitO : Nat := 1
/-- STATUS bit of Z (10_state.md R24, R27). -/
def bitZ : Nat := 5
/-- STATUS bit of C (10_state.md R24, R28). -/
def bitC : Nat := 6
/-- The reserved bits 2, 3, 4 and 7 of STATUS (10_state.md R24, R29). -/
def reservedMask : Byte := 0b10011100#8

end Sys2Proof.Config
end

