-- ==== Sys2Proof/Machine/State.lean ====
section
/-! DEFINITION. The machine's state (10_state.md R20: "The CORE's state is exactly" what stands here), what a step can
stop with, and the state after reset (70_reset_and_hazards.md R220). -/

namespace Sys2Proof.Machine

/-- Memory as its bytes that differ from the reset content, by rising address (10_state.md R34; log entry 7). -/
abbrev Memory := List Host.Cell

/-- One live cache entry, `addr: u16` and `value: u8` (10_state.md R32). -/
@[ext] structure CacheEntry where
  addr  : Addr
  value : Byte
deriving DecidableEq, Repr

/-- The value cache: exactly three slots; `none` is `valid = 0`, so that the unspecified content of an invalid slot
does not exist (10_state.md R32; log entry 6). -/
@[ext] structure Cache where
  slot0 : Option CacheEntry
  slot1 : Option CacheEntry
  slot2 : Option CacheEntry
deriving DecidableEq, Repr

/-- The phase of the control interface (10_state.md R35, 40_fetch_execute.md R110). -/
inductive Phase where
  /-- no run is in progress -/
  | idle
  /-- a run with the bound `end` given to `RUN` -/
  | running (bound : Addr)
deriving DecidableEq, Repr

/-- The memory controller's write ports (20_memory.md R54 to R56). -/
inductive Port where
  /-- I: `writeInstructionByte` -/
  | instruction
  /-- S: `writeStackByte` -/
  | stack
  /-- D: `writeByte` -/
  | data
deriving DecidableEq, Repr

/-- An error record of the report log (60_exceptions.md R201). -/
inductive Report where
  /-- code 1; the address is exact, so a fetch past 0xFFFF reports 0x10000 or 0x10001 (92_eei_decisions.md D9) -/
  | oorRead (addr : Nat)
  /-- code 2 -/
  | oorWrite (port : Port) (addr : Addr) (value : Byte)
  /-- code 3 -/
  | segWrite (port : Port) (addr : Addr) (value : Byte)
  /-- code 4 -/
  | undefOpcode (pc : Addr) (opcode : Byte)
deriving DecidableEq, Repr

/-- Everything the spec gives the machine (10_state.md R20). -/
structure State where
  /-- PC (R21) -/
  pc     : Addr
  /-- SP (R22) -/
  sp     : Addr
  /-- A (R23) -/
  a      : Byte
  /-- STATUS, held whole (R24) -/
  status : Byte
  /-- the value cache (R32) -/
  cache  : Cache
  /-- `mem[0..2047]` (R34) -/
  mem    : Memory
  /-- the phase of the loop (R35) -/
  phase  : Phase
  /-- the report log, oldest report first (R36) -/
  log    : List Report
deriving DecidableEq, Repr

/-- There is no fault: "No condition raises an exception, traps, halts the core or changes control flow"
(60_exceptions.md R200). Nobody raises one; the type has no constructor. -/
inductive Fault where
deriving DecidableEq, Repr

/-- Why the model gives no next state. -/
inductive Refusal where
  /-- raised by an arm of `exec` for an instruction with no meaning yet; safe; no arm raises it -/
  | notModelled (mnemonic : String)
  /-- raised by the loop for an opcode byte REFUSED under `opcode_decode = refuse_high`, to which the spec gives no
  step (30_encoding.md R93, 93_implementation_defined.md I2); safe; `step`, which runs the default, never raises it -/
  | refusedOpcode (opcode : Byte)
  /-- raised by `hostCommand` for a command other than RESET during a run, which "has no move"
  (40_fetch_execute.md R110, 93_implementation_defined.md I8); safe -/
  | hostCommandWhileRunning
deriving DecidableEq, Repr

/-- The cache with no live entry (70_reset_and_hazards.md R220). -/
def Cache.empty : Cache := { slot0 := none, slot1 := none, slot2 := none }

/-- The state `RESET` establishes (70_reset_and_hazards.md R220): every value is the spec's. -/
def State.reset : State :=
  { pc     := Config.pcReset
    sp     := Config.spReset
    a      := Config.aReset
    status := Config.statusReset
    cache  := Cache.empty
    mem    := []
    phase  := .idle
    log    := [] }

end Sys2Proof.Machine
end

