-- ==== Sys2Proof/Machine/Ops.lean ====
section
/-! DEFINITION. The named operations over registers, memory, the memory ports, the value cache and the report log.
Appending a report is what this hardware has in the place of taking an exception (60_exceptions.md R200, R205); there
is no trap entry and no trap return (R205, R206). -/

namespace Sys2Proof.Machine

/-! ### Registers and control state -/

def State.setPc (s : State) (v : Addr) : State := { s with pc := v }
def State.setSp (s : State) (v : Addr) : State := { s with sp := v }
def State.setA (s : State) (v : Byte) : State := { s with a := v }
def State.setStatus (s : State) (v : Byte) : State := { s with status := v }
def State.setCache (s : State) (c : Cache) : State := { s with cache := c }
def State.setMem (s : State) (m : Memory) : State := { s with mem := m }
def State.setPhase (s : State) (p : Phase) : State := { s with phase := p }

/-- `report <Kind>(info)`: append a record to the report log and do nothing else (00_scope.md R8, 60_exceptions.md
R200). -/
def State.addReport (s : State) (r : Report) : State := { s with log := s.log ++ [r] }

/-- The report's code (60_exceptions.md R201). -/
def Report.code : Report → Nat
  | .oorRead _ => 1
  | .oorWrite _ _ _ => 2
  | .segWrite _ _ _ => 3
  | .undefOpcode _ _ => 4

/-! ### The memory array -/

/-- `mem[k]`: an address the list does not name holds the reset content (10_state.md R34). -/
def Memory.get (m : Memory) (k : Nat) : Byte :=
  match m with
  | [] => Config.resetByte
  | (j, x) :: rest => if k = j then x else Memory.get rest k

/-- A cell in front of a list, unless it holds what an unlisted address reads as. -/
def Memory.cons (k : Nat) (v : Byte) (m : Memory) : Memory :=
  if v = Config.resetByte then m else (k, v) :: m

/-- `mem[k] <- v`, keeping the list in its one form (20_memory.md R54 to R56). -/
def Memory.set (m : Memory) (k : Nat) (v : Byte) : Memory :=
  match m with
  | [] => Memory.cons k v []
  | (j, x) :: rest =>
    if k < j then Memory.cons k v ((j, x) :: rest)
    else if k = j then Memory.cons k v rest
    else (j, x) :: Memory.set rest k v

/-- The canonical form with every address from `lo` on: addresses strictly rising, below `MEM_SIZE`, and no entry
equal to what an unlisted address reads as. -/
def Memory.wfFrom (lo : Nat) (m : Memory) : Bool :=
  match m with
  | [] => true
  | (j, x) :: rest => decide (lo ≤ j) && decide (j < Config.memSize) && decide (x ≠ Config.resetByte) && Memory.wfFrom (j + 1) rest

/-- The canonical form of memory: equal memories are equal lists. -/
def Memory.wf (m : Memory) : Bool := Memory.wfFrom 0 m

/-! ### Segments and the memory ports -/

/-- The four answers of the segment checker (20_memory.md R51, R52). -/
inductive Segment where
  | instr | stack | data | oor
deriving DecidableEq, Repr

/-- `seg(a)` (20_memory.md R52). -/
def seg (w : Addr) : Segment :=
  if w.toNat < Config.stackStart then .instr
  else if w.toNat < Config.dataStart then .stack
  else if w.toNat < Config.memSize then .data
  else .oor

/-- The one segment a write port admits (20_memory.md R52). -/
def Port.segment : Port → Segment
  | .instruction => .instr
  | .stack => .stack
  | .data => .data

/-- The outcome a port returns to its caller (20_memory.md R58). -/
inductive PortOutcome where
  | ok | rejectRange | rejectSegment
deriving DecidableEq, Repr

/-- `readByte(a)`, `MemRead(a, 1)` (20_memory.md R53): the byte and the state after. The address is exact, because a
fetch may ask for 0x10000 or 0x10001 (92_eei_decisions.md D9). -/
def memRead (k : Nat) (s : State) : Byte × State :=
  if k < Config.memSize then (s.mem.get k, s)
  else (Config.oorReadValue, s.addReport (.oorRead k))

/-- The three write ports, `MemWriteI`, `MemWriteS` and `MemWriteD` (20_memory.md R54 to R56): range first, then the
port's segment (92_eei_decisions.md D18); a rejected write only reports (R57). -/
def memWrite (p : Port) (w : Addr) (v : Byte) (s : State) : PortOutcome × State :=
  if Config.memSize ≤ w.toNat then (.rejectRange, s.addReport (.oorWrite p w v))
  else if seg w ≠ p.segment then (.rejectSegment, s.addReport (.segWrite p w v))
  else (.ok, s.setMem (s.mem.set w.toNat v))

/-! ### The value cache -/

/-- The tagged answer of a lookup (20_memory.md R63). -/
inductive Lookup where
  | hit (value : Byte)
  | miss
deriving DecidableEq, Repr

/-- A slot is live and holds the address. -/
def slotHolds (slot : Option CacheEntry) (w : Addr) : Bool :=
  match slot with
  | some e => e.addr == w
  | none => false

/-- The lookup in one slot, with the answer if the slot does not hold the address. -/
def slotFind (slot : Option CacheEntry) (w : Addr) (otherwise : Lookup) : Lookup :=
  match slot with
  | some e => if e.addr = w then .hit e.value else otherwise
  | none => otherwise

/-- `CacheLookup(a)` (20_memory.md R63): all 16 address bits are compared; a cached 0 is a hit. -/
def Cache.lookup (c : Cache) (w : Addr) : Lookup :=
  slotFind c.slot0 w (slotFind c.slot1 w (slotFind c.slot2 w .miss))

/-- The three slots, by index. -/
inductive Slot where
  | first | second | third
deriving DecidableEq, Repr

/-- `cache[i] <- {valid = 1, addr, value}` -/
def Cache.put (c : Cache) (i : Slot) (e : CacheEntry) : Cache :=
  match i with
  | .first  => { c with slot0 := some e }
  | .second => { c with slot1 := some e }
  | .third  => { c with slot2 := some e }

/-- The slot `CacheUpdate` writes for an address that is not live (20_memory.md R64): the least free slot; in a full
cache the one whose address is numerically smallest. Where two live addresses are equal, which no reachable state has
(10_state.md R39), the lower slot counts (log entry 6). -/
def Cache.slotForMiss (c : Cache) : Slot :=
  match c.slot0, c.slot1, c.slot2 with
  | none, _, _ => .first
  | some _, none, _ => .second
  | some _, some _, none => .third
  | some e0, some e1, some e2 =>
    if e0.addr ≤ e1.addr ∧ e0.addr ≤ e2.addr then .first
    else if e1.addr ≤ e2.addr then .second
    else .third

/-- The slot `CacheUpdate` writes (20_memory.md R64): the one that holds the address, if there is one. -/
def Cache.slotFor (c : Cache) (w : Addr) : Slot :=
  if slotHolds c.slot0 w then .first
  else if slotHolds c.slot1 w then .second
  else if slotHolds c.slot2 w then .third
  else c.slotForMiss

/-- `CacheUpdate(a, v)` (20_memory.md R64): overwrite in place, else fill a free slot, else evict the smallest
address. The evicted entry is dropped. -/
def Cache.update (c : Cache) (w : Addr) (v : Byte) : Cache := c.put (c.slotFor w) { addr := w, value := v }

/-- The live entries, in slot order (10_state.md R32). -/
def Cache.live (c : Cache) : List CacheEntry := c.slot0.toList ++ c.slot1.toList ++ c.slot2.toList

/-- The addresses of the live entries. -/
def Cache.liveAddrs (c : Cache) : List Addr := c.live.map CacheEntry.addr

/-- "addresses across live entries are pairwise distinct" (10_state.md R32, R39). -/
def Cache.distinct (c : Cache) : Bool := decide c.liveAddrs.Nodup

/-- `CacheUpdate` on the state. -/
def State.updateCache (s : State) (w : Addr) (v : Byte) : State := s.setCache (s.cache.update w v)

/-- `ReadThrough(a, populate)` (20_memory.md R65): a hit touches nothing; a miss reads memory and, if `populate`,
caches what was read, the out-of-range sentinel included (92_eei_decisions.md D11). -/
def readThrough (w : Addr) (populate : Bool) (s : State) : Byte × State :=
  match s.cache.lookup w with
  | .hit v => (v, s)
  | .miss =>
    let r := memRead w.toNat s
    (r.1, if populate then r.2.updateCache w r.1 else r.2)

end Sys2Proof.Machine
end

