-- ==== Sys2Proof/Machine/Flags.lean ====
section
/-! DEFINITION. The ALU, the flag functions and the flag writes (40_fetch_execute.md R117 to R120, 10_state.md R24 to
R29). Exact integers are formed first and narrowed once, as 00_scope.md R9 writes them. -/

namespace Sys2Proof.Machine

/-! ### The ALU (40_fetch_execute.md R117) -/

/-- `add8(a, v, cin) = (a + v + cin) mod 256` -/
def add8 (x v : Byte) (cin : Bool) : Byte := BitVec.ofNat 8 (x.toNat + v.toNat + cin.toNat)

/-- `sub8(v, a, bin) = (v - a - bin) mod 256`: `v` minus `a` -/
def sub8 (v x : Byte) (bin : Bool) : Byte := BitVec.ofInt 8 ((v.toNat : Int) - (x.toNat : Int) - (bin.toNat : Int))

/-- `and8` -/
def and8 (x v : Byte) : Byte := x &&& v

/-- `xor8` -/
def xor8 (x v : Byte) : Byte := x ^^^ v

/-! ### Flag functions -/

/-- `N_of(r)` (R117) -/
def nOf (r : Byte) : Bool := r.getLsbD 7

/-- `Z_of(r)` (R117) -/
def zOf (r : Byte) : Bool := decide (r = 0#8)

/-- `O_add(a, v, r)` (R117) -/
def oAdd (x v r : Byte) : Bool := !(x ^^^ v).getLsbD 7 && (x ^^^ r).getLsbD 7

/-- `C_adc(a, v, cin)` (R118) -/
def cAdc (m : Config.CarryMode) (x v : Byte) (cin : Bool) : Bool :=
  match m with
  | .truncated => false
  | .wide => decide (x.toNat + v.toNat + cin.toNat > 255)

/-- `C_sbc(v, a, bin)` (R118) -/
def cSbc (m : Config.CarryMode) (v x : Byte) (bin : Bool) : Bool :=
  match m with
  | .truncated => false
  | .wide => decide ((v.toNat : Int) - (x.toNat : Int) - (bin.toNat : Int) < 0)

/-- `O_sbc(v, a, r)` (R119) -/
def oSbc (m : Config.SbcOMode) (v x r : Byte) : Bool :=
  match m with
  | .adcStructure => oAdd x v r
  | .trueSigned => (v ^^^ x).getLsbD 7 && (v ^^^ r).getLsbD 7

/-! ### STATUS -/

/-- Write one bit of STATUS and keep the others (R120). -/
def writeBit (st : Byte) (i : Nat) (b : Bool) : Byte :=
  if b then st ||| BitVec.twoPow 8 i else st &&& ~~~(BitVec.twoPow 8 i)

/-- `STATUS.N` (10_state.md R25) -/
def State.flagN (s : State) : Bool := s.status.getLsbD Config.bitN
/-- `STATUS.O` (10_state.md R26) -/
def State.flagO (s : State) : Bool := s.status.getLsbD Config.bitO
/-- `STATUS.Z` (10_state.md R27) -/
def State.flagZ (s : State) : Bool := s.status.getLsbD Config.bitZ
/-- `STATUS.C` (10_state.md R28) -/
def State.flagC (s : State) : Bool := s.status.getLsbD Config.bitC

/-- The flag write of AND and EOR: N and Z, from the new A (R120). -/
def writeNZ (st r : Byte) : Byte := writeBit (writeBit st Config.bitZ (zOf r)) Config.bitN (nOf r)

/-- The flag write of ADC and SBC: N, O, Z and C (R120). -/
def writeNOZC (st r : Byte) (o c : Bool) : Byte :=
  writeBit (writeBit (writeNZ st r) Config.bitC c) Config.bitO o

end Sys2Proof.Machine
end

