-- ==== Sys2Proof/Syntax.lean ====
section
/-! DEFINITION. The instructions: one constructor per row of spec/opcode_table.json (30_encoding.md R94), and the
eight operations of the dispatcher (40_fetch_execute.md R115), which the host names in `EXEC`. -/

namespace Sys2Proof

/-- What an instruction's three bytes decode to (30_encoding.md R99). The bytes an instruction ignores are kept as
a field, so that no bit of an encoding is lost (R96; log entry 13). -/
inductive Instr where
  /-- 0x00: add A and C to a byte of memory (41_arithmetic.md R140) -/
  | adc (addr : Addr)
  /-- 0x01: subtract A and C from a byte of memory (41_arithmetic.md R141) -/
  | sbc (addr : Addr)
  /-- 0x02: load A (42_load_logic.md R150) -/
  | lda (addr : Addr)
  /-- 0x03: bitwise AND into A (42_load_logic.md R151) -/
  | and (addr : Addr)
  /-- 0x04: exclusive OR into A (42_load_logic.md R152) -/
  | eor (addr : Addr)
  /-- 0x05: jump (43_control.md R160) -/
  | jmp (addr : Addr)
  /-- 0x06: push A (44_stack.md R170); the operand bytes are ignored -/
  | psh (ignored : Addr)
  /-- 0x07: pop A (44_stack.md R171); the operand bytes are ignored -/
  | pop (ignored : Addr)
  /-- the row UNDEFINED: an opcode byte with no operation (45_undefined.md R180); the operand bytes are ignored -/
  | undefined (opcode : Byte) (ignored : Addr)
deriving DecidableEq, Repr

/-- The dispatcher's eight operations (40_fetch_execute.md R115). -/
inductive Op where
  | adc | sbc | lda | and | eor | jmp | psh | pop
deriving DecidableEq, Repr

/-- `Execute(op, addr)` as an instruction: the operation with its operand (40_fetch_execute.md R115). -/
def Op.toInstr : Op → Addr → Instr
  | .adc, w => .adc w
  | .sbc, w => .sbc w
  | .lda, w => .lda w
  | .and, w => .and w
  | .eor, w => .eor w
  | .jmp, w => .jmp w
  | .psh, w => .psh w
  | .pop, w => .pop w

end Sys2Proof
end

