-- ==== Sys2Proof/WellFormed.lean ====
section
/-! DEFINITION. Which instructions are the meaning of some word: an operand may have any of its 65536 values
(30_encoding.md R97), so the one check is that the opcode byte of `undefined` is UNDEFINED (R93, R95). -/

namespace Sys2Proof

/-- The opcode bytes that are UNDEFINED under each setting of `opcode_decode` (30_encoding.md R93,
45_undefined.md R180). -/
def undefinedByte (m : Config.OpcodeDecode) (b : Byte) : Bool :=
  match m with
  | .fullByte   => decide (8 ≤ b.toNat)
  | .lowNibble  => decide (8 ≤ b.toNat % 16)
  | .refuseHigh => decide (8 ≤ b.toNat ∧ b.toNat < 16)

/-- An instruction that some word stands for under the setting `m`. -/
def Instr.wellFormed (m : Config.OpcodeDecode) : Instr → Bool
  | .undefined b _ => undefinedByte m b
  | .adc _ => true
  | .sbc _ => true
  | .lda _ => true
  | .and _ => true
  | .eor _ => true
  | .jmp _ => true
  | .psh _ => true
  | .pop _ => true

end Sys2Proof
end

