-- ==== Sys2Proof/Decode.lean ====
section
/-! DEFINITION. The decoder (30_encoding.md R91 to R99), total on any bytes, the encoder, and the choice of parameters
this machine runs with. -/

namespace Sys2Proof

/-- The parameters of the machine that `decodeTableWord`, `exec` and `step` describe: the spec's defaults
(00_scope.md R6; log entries 1 to 3). -/
def chip : Config.Params := Config.Params.spec

/-- Why bytes decode to no instruction. -/
inductive DecodeRefusal where
  /-- fewer than three bytes were given; the machine always fetches three (30_encoding.md R98) -/
  | tooShort
  /-- the opcode byte is REFUSED: only under `opcode_decode = refuse_high` (30_encoding.md R93) -/
  | refusedOpcode (opcode : Byte)
deriving DecidableEq, Repr

/-- `op_of`, the opcode map (30_encoding.md R94): values 8 and above have no operation. -/
def opOf (n : Nat) : Option Op :=
  match n with
  | 0 => some .adc
  | 1 => some .sbc
  | 2 => some .lda
  | 3 => some .and
  | 4 => some .eor
  | 5 => some .jmp
  | 6 => some .psh
  | 7 => some .pop
  | _ => none

/-- The value of the opcode field that `opcode_decode` selects in the opcode byte, or a refusal
(30_encoding.md R93). -/
def opcodeField (m : Config.OpcodeDecode) (b0 : Byte) : Except DecodeRefusal Nat :=
  match m with
  | .fullByte   => .ok b0.toNat
  | .lowNibble  => .ok (b0.extractLsb' 0 4).toNat
  | .refuseHigh => if b0.extractLsb' 4 4 = 0#4 then .ok (b0.extractLsb' 0 4).toNat else .error (.refusedOpcode b0)

/-- The big-endian address operand of the bytes at PC+1 and PC+2 (30_encoding.md R92, 20_memory.md R60). -/
def operandOf (b1 b2 : Byte) : Addr := (b1.zeroExtend 16 <<< 8) ||| b2.zeroExtend 16

/-- The instruction of three bytes: `decode(W) = (decode_op(W[23:16]), W[15:0])` (30_encoding.md R99). -/
def decodeBytes (m : Config.OpcodeDecode) (b0 b1 b2 : Byte) : Except DecodeRefusal Instr :=
  match opcodeField m b0 with
  | .error r => .error r
  | .ok n =>
    match opOf n with
    | some op => .ok (op.toInstr (operandOf b1 b2))
    | none    => .ok (.undefined b0 (operandOf b1 b2))

/-- Decode the first instruction of a list of bytes and return the bytes after it. An instruction takes three bytes
whatever they hold (30_encoding.md R98). -/
def decode (m : Config.OpcodeDecode) : List Byte → Except DecodeRefusal (Instr × List Byte)
  | b0 :: b1 :: b2 :: rest =>
    match decodeBytes m b0 b1 b2 with
    | .ok i    => .ok (i, rest)
    | .error r => .error r
  | _ => .error .tooShort

/-- The three bytes of a 24-bit word `W = b0 ++ b1 ++ b2`, in memory order (30_encoding.md R91). -/
def wordBytes (w : BitVec 24) : List Byte :=
  [w.extractLsb' 16 8, w.extractLsb' 8 8, w.extractLsb' 0 8]

/-- The opcode byte of an instruction (30_encoding.md R94). -/
def opcodeByte : Instr → Byte
  | .adc _ => 0x00#8
  | .sbc _ => 0x01#8
  | .lda _ => 0x02#8
  | .and _ => 0x03#8
  | .eor _ => 0x04#8
  | .jmp _ => 0x05#8
  | .psh _ => 0x06#8
  | .pop _ => 0x07#8
  | .undefined b _ => b

/-- The operand field of an instruction, ignored or not (30_encoding.md R91, R96). -/
def operandField : Instr → Addr
  | .adc w => w
  | .sbc w => w
  | .lda w => w
  | .and w => w
  | .eor w => w
  | .jmp w => w
  | .psh w => w
  | .pop w => w
  | .undefined _ w => w

/-- The encoder: opcode byte, `addr[15:8]`, `addr[7:0]` (30_encoding.md R91, R94). -/
def encode (i : Instr) : List Byte :=
  [opcodeByte i, (operandField i).extractLsb' 8 8, (operandField i).extractLsb' 0 8]

/-- The word of the opcode table's numbering: the table numbers an instruction as ONE 24-bit word W with b0 in bits
23..16 (30_encoding.md R91; log entry 9). Bits from `nbits` on are zero. -/
def tableWord (nbits w : Nat) : BitVec 24 := BitVec.ofNat 24 (w % 2 ^ nbits)

/-- The instruction the decoder reads from an instruction whose bits, as spec/opcode_table.json numbers them,
are `w`. -/
def decodeTableWord (nbits w : Nat) : Option Instr :=
  match decode chip.opcodeDecode (wordBytes (tableWord nbits w)) with
  | .ok (i, _) => some i
  | .error _   => none

end Sys2Proof
end

