-- ==== Sys2Proof/Machine/Operands.lean ====
section
/-! DEFINITION. How an instruction reaches its bytes and its operands: the fetch (40_fetch_execute.md R112), the direct
operand through the cache, the write-back of ADC and SBC, and the stack slot (30_encoding.md R97, 44_stack.md). -/

namespace Sys2Proof.Machine

/-- The three bytes of a fetch and the state after it. -/
structure Fetched where
  b0   : Byte
  b1   : Byte
  b2   : Byte
  after : State
deriving DecidableEq, Repr

/-- Read the opcode byte at PC, then the bytes at PC+1 and PC+2, in that order, as exact addresses and never through
the cache (40_fetch_execute.md R112, 20_memory.md R67, 92_eei_decisions.md D9, D10). -/
def fetch (s : State) : Fetched :=
  let r0 := memRead s.pc.toNat s
  let r1 := memRead (s.pc.toNat + 1) r0.2
  let r2 := memRead (s.pc.toNat + 2) r1.2
  { b0 := r0.1, b1 := r1.1, b2 := r2.1, after := r2.2 }

/-- The operand of ADC, SBC, LDA and AND: through the cache, a miss populates it (40_fetch_execute.md R121). -/
def operandCached (w : Addr) (s : State) : Byte × State := readThrough w true s

/-- The operand of EOR: through the cache, a miss does not populate it (40_fetch_execute.md R121). -/
def operandUncached (w : Addr) (s : State) : Byte × State := readThrough w false s

/-- The write-back of ADC and SBC: the data port, then the cache whatever the port's outcome (41_arithmetic.md R140,
R141, 92_eei_decisions.md D6). -/
def writeBack (w : Addr) (v : Byte) (s : State) : State := (memWrite .data w v s).2.updateCache w v

/-- Write the byte at SP through the stack port, then move SP up whatever the outcome (44_stack.md R170,
92_eei_decisions.md D7). -/
def pushByte (v : Byte) (s : State) : State :=
  let s1 := (memWrite .stack s.sp v s).2
  s1.setSp (s1.sp + 1#16)

/-- Move SP down, then read the byte at the new SP by the general read path, without the cache (44_stack.md R171). -/
def popByte (s : State) : Byte × State :=
  let s1 := s.setSp (s.sp - 1#16)
  memRead s1.sp.toNat s1

end Sys2Proof.Machine
end

