-- ==== Sys2Proof/Machine/Arithmetic.lean ====
section
/-! DEFINITION. ADC and SBC (41_arithmetic.md R140, R141). -/

namespace Sys2Proof.Machine

/-- ADC under the parameters `p` (41_arithmetic.md R140): memory and cache get the sum, A does not. -/
def adcOp (p : Config.Params) (addr : Addr) (s : State) : State :=
  let r := operandCached addr s
  let s1 := r.2
  let cin := s1.flagC
  let result := add8 s1.a r.1 cin
  let s2 := s1.setStatus (writeNOZC s1.status result (oAdd s1.a r.1 result) (cAdc p.carryMode s1.a r.1 cin))
  writeBack addr result s2

/-- SBC under the parameters `p` (41_arithmetic.md R141): value minus A minus C, into memory and cache. -/
def sbcOp (p : Config.Params) (addr : Addr) (s : State) : State :=
  let r := operandCached addr s
  let s1 := r.2
  let bin := s1.flagC
  let result := sub8 r.1 s1.a bin
  let s2 := s1.setStatus (writeNOZC s1.status result (oSbc p.sbcOMode r.1 s1.a result) (cSbc p.carryMode r.1 s1.a bin))
  writeBack addr result s2

/-- ADC (41_arithmetic.md R140) -/
def execAdc (addr : Addr) (s : State) : Host.Outcome State Fault Refusal := .next (adcOp chip addr s)

/-- SBC (41_arithmetic.md R141) -/
def execSbc (addr : Addr) (s : State) : Host.Outcome State Fault Refusal := .next (sbcOp chip addr s)

end Sys2Proof.Machine
end

