-- ==== Sys2Proof/Machine/Control.lean ====
section
/-! DEFINITION. JMP (43_control.md R160) and the undefined opcode (45_undefined.md R180). -/

namespace Sys2Proof.Machine

/-- JMP (43_control.md R160): the loop's advance by 3 comes after it (40_fetch_execute.md R112). -/
def jmpOp (addr : Addr) (s : State) : State := s.setPc addr

/-- `Undefined(b0, pc)` (45_undefined.md R180): one report, nothing else. The operand bytes are ignored. -/
def undefinedOp (opcode : Byte) (s : State) : State := s.addReport (.undefOpcode s.pc opcode)

/-- JMP (43_control.md R160) -/
def execJmp (addr : Addr) (s : State) : Host.Outcome State Fault Refusal := .next (jmpOp addr s)

/-- The row UNDEFINED (45_undefined.md R180) -/
def execUndefined (opcode : Byte) (s : State) : Host.Outcome State Fault Refusal := .next (undefinedOp opcode s)

end Sys2Proof.Machine
end

