-- ==== Sys2Proof/Machine/LoadLogic.lean ====
section
/-! DEFINITION. LDA, AND and EOR (42_load_logic.md R150 to R152). -/

namespace Sys2Proof.Machine

/-- LDA (42_load_logic.md R150): no flags. -/
def ldaOp (addr : Addr) (s : State) : State :=
  let r := operandCached addr s
  r.2.setA r.1

/-- AND (42_load_logic.md R151): N and Z from the new A. -/
def andOp (addr : Addr) (s : State) : State :=
  let r := operandCached addr s
  let v := and8 r.2.a r.1
  (r.2.setA v).setStatus (writeNZ r.2.status v)

/-- EOR (42_load_logic.md R152): N and Z from the new A, the cache untouched. -/
def eorOp (addr : Addr) (s : State) : State :=
  let r := operandUncached addr s
  let v := xor8 r.2.a r.1
  (r.2.setA v).setStatus (writeNZ r.2.status v)

/-- LDA (42_load_logic.md R150) -/
def execLda (addr : Addr) (s : State) : Host.Outcome State Fault Refusal := .next (ldaOp addr s)

/-- AND (42_load_logic.md R151) -/
def execAnd (addr : Addr) (s : State) : Host.Outcome State Fault Refusal := .next (andOp addr s)

/-- EOR (42_load_logic.md R152) -/
def execEor (addr : Addr) (s : State) : Host.Outcome State Fault Refusal := .next (eorOp addr s)

end Sys2Proof.Machine
end

