-- ==== Sys2Proof/Machine/Stack.lean ====
section
/-! DEFINITION. PSH and POP (44_stack.md R170, R171): no flags, no cache; the operand bytes are ignored
(30_encoding.md R96). -/

namespace Sys2Proof.Machine

/-- PSH (44_stack.md R170) -/
def pshOp (s : State) : State := pushByte s.a s

/-- POP (44_stack.md R171) -/
def popOp (s : State) : State :=
  let r := popByte s
  r.2.setA r.1

/-- PSH (44_stack.md R170) -/
def execPsh (s : State) : Host.Outcome State Fault Refusal := .next (pshOp s)

/-- POP (44_stack.md R171) -/
def execPop (s : State) : Host.Outcome State Fault Refusal := .next (popOp s)

end Sys2Proof.Machine
end

