-- ==== Sys2Proof/Machine/Dispatch.lean ====
section
/-! DEFINITION. The dispatcher (40_fetch_execute.md R115), with the meaning of an UNDEFINED word beside the eight
operations (R112, R180). It is the operation alone: no fetch and no advance of PC (R116). -/

namespace Sys2Proof.Machine

def exec (i : Instr) (s : State) : Host.Outcome State Fault Refusal :=
  match i with
  | .adc addr => Sys2Proof.Machine.execAdc addr s
  | .sbc addr => Sys2Proof.Machine.execSbc addr s
  | .lda addr => Sys2Proof.Machine.execLda addr s
  | .and addr => Sys2Proof.Machine.execAnd addr s
  | .eor addr => Sys2Proof.Machine.execEor addr s
  | .jmp addr => Sys2Proof.Machine.execJmp addr s
  | .psh _ => Sys2Proof.Machine.execPsh s
  | .pop _ => Sys2Proof.Machine.execPop s
  | .undefined opcode _ => Sys2Proof.Machine.execUndefined opcode s

end Sys2Proof.Machine
end

