-- ==== Sys2Proof/Machine/Loop.lean ====
section
/-! DEFINITION. One iteration of the fetch-execute loop (40_fetch_execute.md R112, R113), for any setting of the
parameters of 00_scope.md R6. -/

namespace Sys2Proof.Machine

/-- `Execute` under the parameters `p`, with `Undefined` beside it (40_fetch_execute.md R112, R115). `exec` is this at
the machine's own parameters. -/
def executeWith (p : Config.Params) (i : Instr) (s : State) : State :=
  match i with
  | .adc addr => adcOp p addr s
  | .sbc addr => sbcOp p addr s
  | .lda addr => ldaOp addr s
  | .and addr => andOp addr s
  | .eor addr => eorOp addr s
  | .jmp addr => jmpOp addr s
  | .psh _ => pshOp s
  | .pop _ => popOp s
  | .undefined opcode _ => undefinedOp opcode s

/-- The advance of the loop: `PC <- (PC + 3) mod 2^16`, after every instruction, JMP included (40_fetch_execute.md
R112). -/
def State.advance (s : State) : State := s.setPc (s.pc + Config.instrLen)

/-- The loop's iteration with PC below the bound: fetch, decode, execute, advance (40_fetch_execute.md R112). -/
def runOne (m : Config.OpcodeDecode) (run : Instr → State → Host.Outcome State Fault Refusal) (s : State) :
    Host.Outcome State Fault Refusal :=
  let f := fetch s
  match decodeBytes m f.b0 f.b1 f.b2 with
  | .error _ => .refused (.refusedOpcode f.b0)
  | .ok i =>
    match run i f.after with
    | .next t => .next t.advance
    | .fault r => .fault r
    | .refused r => .refused r

/-- `STEP` (40_fetch_execute.md R112): the run ends where PC is not below the bound (R113). In Idle the core has no
transition (R110) and nothing changes (log entry 4). -/
def loopStep (m : Config.OpcodeDecode) (run : Instr → State → Host.Outcome State Fault Refusal) (s : State) :
    Host.Outcome State Fault Refusal :=
  match s.phase with
  | .idle => .next s
  | .running bound => if s.pc < bound then runOne m run s else .next (s.setPhase .idle)

/-- `STEP` of a machine with the parameters `p`. -/
def stepWith (p : Config.Params) (s : State) : Host.Outcome State Fault Refusal :=
  loopStep p.opcodeDecode (fun i t => .next (executeWith p i t)) s

end Sys2Proof.Machine
end

