-- ==== Sys2Proof/Machine/HostPort.lean ====
section
/-! DEFINITION. The host's commands (40_fetch_execute.md R110, R111, R116; 20_memory.md R72; 70_reset_and_hazards.md
R220): the other agent of 00_scope.md R5, as transitions labelled with the command. -/

namespace Sys2Proof.Machine

/-- The host's commands (40_fetch_execute.md R110). -/
inductive HostCommand where
  | reset
  | run (start bound : Addr)
  | exec (op : Op) (addr : Addr)
  | readByte (addr : Addr)
  | writeInstructionByte (addr : Addr) (value : Byte)
  | writeStackByte (addr : Addr) (value : Byte)
  | writeByte (addr : Addr) (value : Byte)
  | observe
deriving DecidableEq, Repr

/-- Put an entry into a list that rises by address. -/
def insertEntry (e : CacheEntry) : List CacheEntry → List CacheEntry
  | [] => [e]
  | x :: rest => if e.addr ≤ x.addr then e :: x :: rest else x :: insertEntry e rest

/-- The set of live pairs, written in one form: by rising address (10_state.md R33). -/
def Cache.livePairs (c : Cache) : List CacheEntry := c.live.foldr insertEntry []

/-- What the host sees of the machine (40_fetch_execute.md R110, R122). -/
structure Observation where
  pc     : Addr
  sp     : Addr
  a      : Byte
  status : Byte
  live   : List CacheEntry
  mem    : Memory
  log    : List Report
deriving DecidableEq, Repr

/-- `observe` (40_fetch_execute.md R110) -/
def State.observation (s : State) : Observation :=
  { pc := s.pc, sp := s.sp, a := s.a, status := s.status, live := s.cache.livePairs, mem := s.mem, log := s.log }

/-- What a command returns to the host (40_fetch_execute.md R110, 20_memory.md R53, R58). -/
inductive HostReply where
  | done
  | byte (value : Byte)
  | outcome (o : PortOutcome)
  | observed (o : Observation)
deriving DecidableEq, Repr

/-- The phase of a run is in progress. -/
def State.isRunning (s : State) : Bool :=
  match s.phase with
  | .idle => false
  | .running _ => true

/-- A command accepted in Idle (40_fetch_execute.md R110, R111, R116), and RESET (70_reset_and_hazards.md R220). `EXEC`
performs `Execute(op, addr)` once: no fetch, no test of the bound, no advance. -/
def hostAction (run : Instr → State → Host.Outcome State Fault Refusal) (c : HostCommand) (s : State) :
    Host.Outcome (State × HostReply) Fault Refusal :=
  match c with
  | .reset => .next (State.reset, .done)
  | .run start bound => .next ((s.setPc start).setPhase (.running bound), .done)
  | .exec op addr =>
    match run (op.toInstr addr) s with
    | .next t => .next (t, .done)
    | .fault r => .fault r
    | .refused r => .refused r
  | .readByte addr => .next ((memRead addr.toNat s).2, .byte (memRead addr.toNat s).1)
  | .writeInstructionByte addr v => .next ((memWrite .instruction addr v s).2, .outcome (memWrite .instruction addr v s).1)
  | .writeStackByte addr v => .next ((memWrite .stack addr v s).2, .outcome (memWrite .stack addr v s).1)
  | .writeByte addr v => .next ((memWrite .data addr v s).2, .outcome (memWrite .data addr v s).1)
  | .observe => .next (s, .observed s.observation)

/-- A host command: RESET at any time, every other command only in Idle; during a run it "has no move"
(40_fetch_execute.md R110; log entry 8). -/
def hostCommandBy (run : Instr → State → Host.Outcome State Fault Refusal) (c : HostCommand) (s : State) :
    Host.Outcome (State × HostReply) Fault Refusal :=
  if s.isRunning && decide (c ≠ .reset) then .refused .hostCommandWhileRunning else hostAction run c s

/-- A host command to this machine. -/
def hostCommand (c : HostCommand) (s : State) : Host.Outcome (State × HostReply) Fault Refusal := hostCommandBy exec c s

/-- A host command to a machine with the parameters `p`. -/
def hostCommandWith (p : Config.Params) (c : HostCommand) (s : State) : Host.Outcome (State × HostReply) Fault Refusal :=
  hostCommandBy (fun i t => .next (executeWith p i t)) c s

/-- The write port that admits an address: the host loads code or data of a segment through it
(70_reset_and_hazards.md R223). -/
def loadPort (w : Addr) : Port :=
  match seg w with
  | .instr => .instruction
  | .stack => .stack
  | .data => .data
  | .oor => .data

/-- Store bytes at an address and the ones after it, each through the port of its segment: the loader
(70_reset_and_hazards.md R223). -/
def loadBytes (w : Addr) (bytes : List Byte) (s : State) : State :=
  match bytes with
  | [] => s
  | b :: rest => loadBytes (w + 1#16) rest (memWrite (loadPort w) w b s).2

/-- Load an instruction's three bytes where the next step fetches and make that step a running one: at PC where the
three bytes lie in memory, else at 0; the phase is kept where it already runs past PC, else it is the one
`RUN(PC, PC + 3)` gives (40_fetch_execute.md R111; log entry 5). -/
def placeWord (s : State) (w : BitVec 24) : State :=
  let s1 := if s.pc.toNat + 3 ≤ Config.memSize then s else s.setPc 0#16
  let s2 := loadBytes s1.pc (wordBytes w) s1
  match s2.phase with
  | .idle => s2.setPhase (.running (s2.pc + Config.instrLen))
  | .running bound => if s2.pc < bound then s2 else s2.setPhase (.running (s2.pc + Config.instrLen))

end Sys2Proof.Machine
end

