-- ==== Sys2Proof/Machine/Step.lean ====
section
/-! DEFINITION. The machine's step: `STEP` with the dispatcher `exec` (40_fetch_execute.md R112), and the placing of an
instruction for the very next step. -/

namespace Sys2Proof.Machine

/-- One transition of the core (40_fetch_execute.md R112 to R114). -/
def step (s : State) : Host.Outcome State Fault Refusal := loopStep chip.opcodeDecode exec s

/-- `s` with the instruction whose bits, as spec/opcode_table.json numbers them, are `w`, stored where the next step
fetches, and a run in progress (log entry 5). -/
def State.withFetchWord (s : State) (nbits w : Nat) : State := placeWord s (tableWord nbits w)

end Sys2Proof.Machine
end

