-- ==== Sys2Proof/Safety.lean ====
section
/-! DEFINITION. What the claims are stated in: the state's invariant, runs of the two agents, and what it is for a run to
be safe. -/

namespace Sys2Proof.Machine

/-! ### What a port or an operand gives, as a function of the state before -/

/-- The report `readByte` makes: one out of range, else none (20_memory.md R53). -/
def readReports (k : Nat) : List Report := if k < Config.memSize then [] else [.oorRead k]

/-- The byte `readByte` returns (20_memory.md R53). -/
def readValue (m : Memory) (k : Nat) : Byte := if k < Config.memSize then m.get k else Config.oorReadValue

/-- The report a write port makes: range first, then segment (20_memory.md R54 to R58). -/
def writeReports (p : Port) (w : Addr) (v : Byte) : List Report :=
  if Config.memSize ≤ w.toNat then [.oorWrite p w v] else if seg w ≠ p.segment then [.segWrite p w v] else []

/-- The outcome a write port returns (20_memory.md R54 to R58). -/
def writeOutcome (p : Port) (w : Addr) : PortOutcome :=
  if Config.memSize ≤ w.toNat then .rejectRange else if seg w ≠ p.segment then .rejectSegment else .ok

/-- The value of a direct operand: the cached one, else the byte read (20_memory.md R65). -/
def operandValue (s : State) (w : Addr) : Byte :=
  match s.cache.lookup w with
  | .hit v => v
  | .miss => readValue s.mem w.toNat

/-- The reports a direct operand makes: none on a hit (20_memory.md R65). -/
def operandReports (s : State) (w : Addr) : List Report :=
  match s.cache.lookup w with
  | .hit _ => []
  | .miss => readReports w.toNat

/-- The reports a fetch makes, in order (60_exceptions.md R203). -/
def fetchReports (pc : Addr) : List Report :=
  readReports pc.toNat ++ readReports (pc.toNat + 1) ++ readReports (pc.toNat + 2)

/-! ### Invariants and runs -/

/-- The invariant of every reachable state: memory in its one form and inside [0, 2048), live cache addresses distinct
(10_state.md R39), reserved STATUS bits 0 (10_state.md R29). -/
def State.inv (s : State) : Bool :=
  s.mem.wf && s.cache.distinct && decide (s.status &&& Config.reservedMask = 0#8)

/-- Two states that hold the same live cache pairs, in whatever slots, and agree in everything else (10_state.md R33). -/
def SameButSlots (s t : State) : Prop :=
  s.cache.live.Perm t.cache.live ∧ t.setCache s.cache = s

/-- The live entry of `w`, if there is one, holds the memory byte at `w`, and `w` is in range (20_memory.md R66). -/
def State.freshAt (s : State) (w : Addr) : Prop :=
  ∀ v, s.cache.lookup w = .hit v → w.toNat < Config.memSize ∧ s.mem.get w.toNat = v

/-- No live entry is stale (20_memory.md R66). -/
def State.coherent (s : State) : Prop := ∀ w, s.freshAt w

/-- A move of the system: the core's step or a host command (00_scope.md R5, 40_fetch_execute.md R110). -/
inductive Event where
  | core
  | host (c : HostCommand)
deriving DecidableEq, Repr

/-- One move of the system with the parameters `p`. -/
def sysStep (p : Config.Params) (e : Event) (s : State) : Host.Outcome State Fault Refusal :=
  match e with
  | .core => stepWith p s
  | .host c =>
    match hostCommandWith p c s with
    | .next r => .next r.1
    | .fault r => .fault r
    | .refused r => .refused r

/-- The states that some moves of the two agents lead to from reset. -/
inductive Reachable (p : Config.Params) : State → Prop where
  | reset : Reachable p State.reset
  | move (s t : State) (e : Event) : Reachable p s → sysStep p e s = .next t → Reachable p t

/-- A safe run: at the machine's own parameters the core never stops with a fault or a refusal, however long it runs
(60_exceptions.md R200). Steps in Idle count as well, and what they answer is the model's choice (log entry 4). -/
def SafeRun (s : State) : Prop := ∀ k, ∃ t, Sys2Proof.core.run k s = .next t

end Sys2Proof.Machine
end

