-- ==== Sys2Proof/Certificates/Slice0/Obligations.lean ====
section
/-! DEFINITION. The statements for the provers, from the numbered rules of spec/. Where a clause rests on one of the
spec's own decisions (92_eei_decisions.md D<n>) or on the model's choice (log entry <n>), the docstring names it. -/

open Sys2Proof Sys2Proof.Machine

/-! ### Encoding -/

/-- Decoding what the encoder writes gives the instruction back, whatever bytes follow, under every setting of
`opcode_decode` (30_encoding.md R91 to R98). -/
def Obligations.DecodeOfEncodeIsIdentity : Prop :=
  ∀ (m : Config.OpcodeDecode) (i : Instr) (rest : List Byte),
    i.wellFormed m = true → decode m (encode i ++ rest) = .ok (i, rest)

/-- Under the default decoding every 24-bit word is the encoding of exactly one well-formed instruction
(30_encoding.md R99). -/
def Obligations.EveryWordHasExactlyOneMeaning : Prop :=
  ∀ w : BitVec 24, ∃ i : Instr,
    decode .fullByte (wordBytes w) = .ok (i, []) ∧ i.wellFormed .fullByte = true ∧ encode i = wordBytes w ∧
    ∀ j : Instr, j.wellFormed .fullByte = true → encode j = wordBytes w → j = i

/-- The opcode map, and the big-endian operand, under every setting of `opcode_decode` (30_encoding.md R94, R92; that
the byte at PC+1 is the high half is the spec's reading of "big-endian", 93_implementation_defined.md G1). -/
def Obligations.OpcodeMapAndBigEndianOperand : Prop :=
  ∀ (m : Config.OpcodeDecode) (b1 b2 : Byte), ∃ w : Addr, w.toNat = 256 * b1.toNat + b2.toNat ∧
    decodeBytes m 0x00#8 b1 b2 = .ok (.adc w) ∧ decodeBytes m 0x01#8 b1 b2 = .ok (.sbc w) ∧
    decodeBytes m 0x02#8 b1 b2 = .ok (.lda w) ∧ decodeBytes m 0x03#8 b1 b2 = .ok (.and w) ∧
    decodeBytes m 0x04#8 b1 b2 = .ok (.eor w) ∧ decodeBytes m 0x05#8 b1 b2 = .ok (.jmp w) ∧
    decodeBytes m 0x06#8 b1 b2 = .ok (.psh w) ∧ decodeBytes m 0x07#8 b1 b2 = .ok (.pop w) ∧
    (∀ b0 : Byte, 8 ≤ b0.toNat → b0.toNat ≤ 15 → decodeBytes m b0 b1 b2 = .ok (.undefined b0 w)) ∧
    (∀ b0 : Byte, 16 ≤ b0.toNat → decodeBytes .fullByte b0 b1 b2 = .ok (.undefined b0 w))

/-- The three settings of `opcode_decode` on every opcode byte: the whole byte, the low nibble, or a refusal of a byte
with a high nibble; they agree below 0x10, and the out-of-range fetch sentinel 0xFF is undefined, undefined and refused
(30_encoding.md R93). -/
def Obligations.OpcodeByteUnderEachSetting : Prop :=
  ∀ b0 b1 b2 : Byte,
    (b0.toNat ≤ 7 → ∃ op, opOf b0.toNat = some op ∧ decodeBytes .fullByte b0 b1 b2 = .ok (op.toInstr (operandOf b1 b2))) ∧
    (7 < b0.toNat → decodeBytes .fullByte b0 b1 b2 = .ok (.undefined b0 (operandOf b1 b2))) ∧
    (b0.toNat % 16 ≤ 7 → ∃ op, opOf (b0.toNat % 16) = some op ∧
      decodeBytes .lowNibble b0 b1 b2 = .ok (op.toInstr (operandOf b1 b2))) ∧
    (7 < b0.toNat % 16 → decodeBytes .lowNibble b0 b1 b2 = .ok (.undefined b0 (operandOf b1 b2))) ∧
    (15 < b0.toNat → decodeBytes .refuseHigh b0 b1 b2 = .error (.refusedOpcode b0)) ∧
    (b0.toNat ≤ 15 → ∀ m m', decodeBytes m b0 b1 b2 = decodeBytes m' b0 b1 b2) ∧
    (b0 = 0xFF#8 → decodeBytes .fullByte b0 b1 b2 = .ok (.undefined b0 (operandOf b1 b2)) ∧
      decodeBytes .lowNibble b0 b1 b2 = .ok (.undefined b0 (operandOf b1 b2)) ∧
      decodeBytes .refuseHigh b0 b1 b2 = .error (.refusedOpcode b0))

/-- Seven words, numbered as the opcode table numbers them (log entry 9), at the default `opcode_decode` (92_eei_decisions.md
D2, log entry 2). The first five are the encoding examples of 30_encoding.md R100; `0A 12 34` is the example of
45_undefined.md R180 (and of 95_test_vectors.md P4). The seventh, `12 00 00`, is the model's own word and no example of the
spec: the opcode byte 0x12 is undefined under `full_byte` alone (30_encoding.md R93; V-U2 gives that byte), and its operand
bytes are chosen here. That the byte at PC+1 is the high half of the operand is G1 (log entry 19). -/
def Obligations.EncodingExamplesDecode : Prop :=
  decodeTableWord 24 0x020200 = some (.lda 0x0200#16) ∧ decodeTableWord 24 0x000200 = some (.adc 0x0200#16) ∧
  decodeTableWord 24 0x05000F = some (.jmp 0x000F#16) ∧ decodeTableWord 24 0x060000 = some (.psh 0x0000#16) ∧
  decodeTableWord 24 0x070000 = some (.pop 0x0000#16) ∧ decodeTableWord 24 0x0A1234 = some (.undefined 0x0A#8 0x1234#16) ∧
  decodeTableWord 24 0x120000 = some (.undefined 0x12#8 0x0000#16)

/-! ### Reset and the host's commands -/

/-- RESET, from any state and in any phase, establishes the values of 70_reset_and_hazards.md R220. -/
def Obligations.ResetEstablishesTheResetState : Prop :=
  ∀ s : State, ∃ t : State, hostCommand .reset s = .next (t, .done) ∧ t = State.reset ∧
    (∀ k, k < 2048 → t.mem.get k = 0x00#8) ∧ t.pc = 0x0000#16 ∧ t.sp = 0x0100#16 ∧ t.a = 0x00#8 ∧ t.status = 0x00#8 ∧
    t.cache.slot0 = none ∧ t.cache.slot1 = none ∧ t.cache.slot2 = none ∧ t.phase = .idle ∧ t.log = []

/-- RUN sets PC and the phase and changes nothing else (40_fetch_execute.md R111). -/
def Obligations.RunSetsPcAndPhaseOnly : Prop :=
  ∀ (s : State) (start bound : Addr), s.phase = .idle → ∃ t : State, hostCommand (.run start bound) s = .next (t, .done) ∧
    t.pc = start ∧ t.phase = .running bound ∧ t.sp = s.sp ∧ t.a = s.a ∧ t.status = s.status ∧ t.cache = s.cache ∧
    t.mem = s.mem ∧ t.log = s.log

/-- EXEC performs the operation once with no fetch, no test of the bound and no advance: JMP leaves PC at its target,
every other operation leaves PC alone, and PSH and POP ignore the address (40_fetch_execute.md R116). -/
def Obligations.ExecPortPerformsOneOperation : Prop :=
  ∀ (s : State) (op : Op) (addr : Addr), s.phase = .idle → ∃ t : State,
    hostCommand (.exec op addr) s = .next (t, .done) ∧ exec (op.toInstr addr) s = .next t ∧ t.phase = .idle ∧
    (op = .jmp → t = { s with pc := addr }) ∧ (op ≠ .jmp → t.pc = s.pc) ∧
    (op = .psh ∨ op = .pop → ∀ other : Addr, hostCommand (.exec op other) s = .next (t, .done))

/-- In Idle every command is answered; during a run every command but RESET is refused (that "has no move" is a refusal
is log entry 8); observation changes nothing; the ports write no register, no cache entry and no phase
(40_fetch_execute.md R110, 20_memory.md R72). -/
def Obligations.HostCommandsAreAcceptedWhenIdle : Prop :=
  ∀ (s : State) (c : HostCommand),
    (s.phase = .idle → ∃ r : State × HostReply, hostCommand c s = .next r) ∧
    (∀ bound, s.phase = .running bound → c ≠ .reset → hostCommand c s = .refused .hostCommandWhileRunning) ∧
    (s.phase = .idle → hostCommand .observe s = .next (s, .observed s.observation)) ∧
    (∀ (t : State) (r : HostReply), hostCommand c s = .next (t, r) → c ≠ .reset →
      (∀ start bound, c ≠ .run start bound) → (∀ op addr, c ≠ .exec op addr) →
      t.pc = s.pc ∧ t.sp = s.sp ∧ t.a = s.a ∧ t.status = s.status ∧ t.cache = s.cache ∧ t.phase = s.phase)

/-- A port's write of its own segment is read back; a write outside it leaves every read as it was: of the data port
as the source tests it, and of the other two (20_memory.md R76). -/
def Obligations.PortWriteIsReadBack : Prop :=
  ∀ (s : State) (addr other : Addr) (v : Byte), s.phase = .idle → s.mem.wf = true → ∀ (c : HostCommand) (lo hi : Nat),
    (c = .writeByte addr v ∧ lo = 512 ∧ hi = 2048 ∨ c = .writeStackByte addr v ∧ lo = 256 ∧ hi = 512 ∨
      c = .writeInstructionByte addr v ∧ lo = 0 ∧ hi = 256) →
    ∃ (t t2 s2 : State) (r : HostReply) (x : Byte), hostCommand c s = .next (t, r) ∧
      hostCommand (.readByte other) s = .next (s2, .byte x) ∧
      (lo ≤ addr.toNat ∧ addr.toNat < hi → r = .outcome .ok ∧
        hostCommand (.readByte other) t = .next (t2, .byte (if other = addr then v else x))) ∧
      (¬ (lo ≤ addr.toNat ∧ addr.toNat < hi) → r ≠ .outcome .ok ∧ t.mem = s.mem ∧
        hostCommand (.readByte other) t = .next (t2, .byte x))

/-! ### Memory and its ports -/

/-- The segment checker and the one segment of each write port (20_memory.md R52). -/
def Obligations.SegmentOfAnAddress : Prop :=
  (∀ w : Addr, (w.toNat < 256 → seg w = .instr) ∧ (256 ≤ w.toNat ∧ w.toNat < 512 → seg w = .stack) ∧
    (512 ≤ w.toNat ∧ w.toNat < 2048 → seg w = .data) ∧ (2048 ≤ w.toNat → seg w = .oor)) ∧
  Port.segment .instruction = .instr ∧ Port.segment .stack = .stack ∧ Port.segment .data = .data

/-- `readByte`: the stored byte of any in-range address with nothing changed; out of range the sentinel 0xFF and one
report (20_memory.md R53). -/
def Obligations.ReadByteOrSentinel : Prop :=
  ∀ (s : State) (k : Nat), (k < 2048 → memRead k s = (s.mem.get k, s)) ∧
    (2048 ≤ k → memRead k s = (0xFF#8, { s with log := s.log ++ [.oorRead k] }))

/-- The three write ports: accepted exactly in the port's segment, where one byte changes; else the outcome and the one
report name the cause, range before segment (92_eei_decisions.md D18), and nothing changes but the log
(20_memory.md R54 to R57). -/
def Obligations.WritePortsAdmitOneSegment : Prop :=
  ∀ (s : State) (p : Port) (w : Addr) (v : Byte) (lo hi : Nat), s.mem.wf = true →
    (p = .instruction ∧ lo = 0 ∧ hi = 256 ∨ p = .stack ∧ lo = 256 ∧ hi = 512 ∨ p = .data ∧ lo = 512 ∧ hi = 2048) →
    (2048 ≤ w.toNat → memWrite p w v s = (.rejectRange, { s with log := s.log ++ [.oorWrite p w v] })) ∧
    (w.toNat < 2048 ∧ ¬ (lo ≤ w.toNat ∧ w.toNat < hi) →
      memWrite p w v s = (.rejectSegment, { s with log := s.log ++ [.segWrite p w v] })) ∧
    (lo ≤ w.toNat ∧ w.toNat < hi → ∃ m : Memory, memWrite p w v s = (.ok, { s with mem := m }) ∧ m.wf = true ∧
      ∀ k, m.get k = if k = w.toNat then v else s.mem.get k)

/-! ### The value cache -/

/-- A lookup hits exactly on the live entries, a cached 0 included, and misses exactly on the other addresses
(20_memory.md R63). -/
def Obligations.LookupFindsExactlyTheLiveEntries : Prop :=
  ∀ (c : Cache) (w : Addr), c.distinct = true →
    (∀ v : Byte, c.lookup w = .hit v ↔ (⟨w, v⟩ : CacheEntry) ∈ c.live) ∧
    (c.lookup w = .miss ↔ ∀ e ∈ c.live, e.addr ≠ w)

/-- An update: the address is live with the new value; on a hit or with a free slot every other address looks up as
before; in a full cache exactly the numerically smallest live address is lost (20_memory.md R64). -/
def Obligations.UpdateEvictsTheSmallestAddress : Prop :=
  ∀ (c : Cache) (w : Addr) (v : Byte), c.distinct = true →
    (c.update w v).distinct = true ∧ (c.update w v).lookup w = .hit v ∧
    (c.lookup w ≠ .miss ∨ c.live.length < 3 → ∀ b, b ≠ w → (c.update w v).lookup b = c.lookup b) ∧
    (c.lookup w = .miss ∧ c.live.length < 3 → (c.update w v).live.length = c.live.length + 1) ∧
    (c.lookup w = .miss ∧ c.live.length = 3 → (c.update w v).live.length = 3 ∧
      ∃ gone ∈ c.live, (∀ e ∈ c.live, gone.addr.toNat ≤ e.addr.toNat) ∧ (c.update w v).lookup gone.addr = .miss ∧
        ∀ b, b ≠ w → b ≠ gone.addr → (c.update w v).lookup b = c.lookup b)

/-- The read through the cache: a hit gives the cached value and changes nothing; a miss reads memory, and only then
and only if `populate` is the cache updated (20_memory.md R65). -/
def Obligations.ReadThroughConsultsTheCacheFirst : Prop :=
  ∀ (s : State) (w : Addr) (populate : Bool),
    (∀ v, s.cache.lookup w = .hit v → readThrough w populate s = (v, s)) ∧
    (s.cache.lookup w = .miss → ∃ t : State,
      readThrough w populate s = (if w.toNat < 2048 then s.mem.get w.toNat else 0xFF#8, t) ∧
      t.log = s.log ++ (if w.toNat < 2048 then [] else [.oorRead w.toNat]) ∧
      t.pc = s.pc ∧ t.sp = s.sp ∧ t.a = s.a ∧ t.status = s.status ∧ t.mem = s.mem ∧ t.phase = s.phase ∧
      (populate = false → t.cache = s.cache) ∧
      (populate = true → t.cache = s.cache.update w (if w.toNat < 2048 then s.mem.get w.toNat else 0xFF#8)))

/-- Which slot holds which pair cannot be seen: two states with the same live pairs and the same rest make the same
moves, of the core and of the host, to states again alike, and the host observes the same (10_state.md R33; the spec
marks it as derived). -/
def Obligations.CacheSlotOrderIsUnobservable : Prop :=
  ∀ (p : Config.Params) (s t : State), s.cache.distinct = true → SameButSlots s t →
    s.observation = t.observation ∧
    ∀ (e : Event) (s' : State), sysStep p e s = .next s' → ∃ t', sysStep p e t = .next t' ∧ SameButSlots s' t'

/-! ### The instructions: each completes, with this result and this frame -/

/-- ADC (41_arithmetic.md R140) at the default parameters: memory (if the address is in the data segment) and the cache
(whatever the write's outcome, 92_eei_decisions.md D6) get (A + value + C) mod 256; N, O, Z, C follow the result, C is
cleared (D1), O is cleared when its condition is false (D5); A and everything else is kept. -/
def Obligations.AdcAddsIntoMemoryAndCache : Prop :=
  ∀ (s : State) (addr : Addr) (v : Byte) (sum : Nat), s.mem.wf = true → v = operandValue s addr →
    sum = s.a.toNat + v.toNat + s.flagC.toNat → ∃ t : State, exec (.adc addr) s = .next t ∧
      t.a = s.a ∧ t.sp = s.sp ∧ t.pc = s.pc ∧ t.phase = s.phase ∧
      t.flagN = decide (128 ≤ sum % 256) ∧ t.flagZ = decide (sum % 256 = 0) ∧ t.flagC = false ∧
      (t.flagO = true ↔ (s.a.toNat < 128 ↔ v.toNat < 128) ∧ ¬ (s.a.toNat < 128 ↔ sum % 256 < 128)) ∧
      (∀ j, j ≠ 0 → j ≠ 1 → j ≠ 5 → j ≠ 6 → t.status.getLsbD j = s.status.getLsbD j) ∧
      (∀ k, t.mem.get k = if k = addr.toNat ∧ 512 ≤ k ∧ k < 2048 then BitVec.ofNat 8 sum else s.mem.get k) ∧
      t.cache = s.cache.update addr (BitVec.ofNat 8 sum) ∧
      t.log = s.log ++ operandReports s addr ++
        (if 2048 ≤ addr.toNat then [.oorWrite .data addr (BitVec.ofNat 8 sum)]
         else if addr.toNat < 512 then [.segWrite .data addr (BitVec.ofNat 8 sum)] else [])

/-- SBC (41_arithmetic.md R141) at the default parameters: as ADC with (value - A - C) mod 256, the borrow term being C
itself (92_eei_decisions.md D3), C cleared (D1) and O by ADC's expression (D4). -/
def Obligations.SbcSubtractsIntoMemoryAndCache : Prop :=
  ∀ (s : State) (addr : Addr) (v : Byte) (diff : Int), s.mem.wf = true → v = operandValue s addr →
    diff = (v.toNat : Int) - s.a.toNat - s.flagC.toNat → ∃ t : State, exec (.sbc addr) s = .next t ∧
      t.a = s.a ∧ t.sp = s.sp ∧ t.pc = s.pc ∧ t.phase = s.phase ∧
      t.flagN = decide (128 ≤ diff % 256) ∧ t.flagZ = decide (diff % 256 = 0) ∧ t.flagC = false ∧
      (t.flagO = true ↔ (s.a.toNat < 128 ↔ v.toNat < 128) ∧ ¬ (s.a.toNat < 128 ↔ diff % 256 < 128)) ∧
      (∀ j, j ≠ 0 → j ≠ 1 → j ≠ 5 → j ≠ 6 → t.status.getLsbD j = s.status.getLsbD j) ∧
      (∀ k, t.mem.get k = if k = addr.toNat ∧ 512 ≤ k ∧ k < 2048 then BitVec.ofInt 8 diff else s.mem.get k) ∧
      t.cache = s.cache.update addr (BitVec.ofInt 8 diff) ∧
      t.log = s.log ++ operandReports s addr ++
        (if 2048 ≤ addr.toNat then [.oorWrite .data addr (BitVec.ofInt 8 diff)]
         else if addr.toNat < 512 then [.segWrite .data addr (BitVec.ofInt 8 diff)] else [])

/-- LDA (42_load_logic.md R150): A gets the operand, which is cached; no flag, no byte of memory and no other register
changes. -/
def Obligations.LdaLoadsAndCaches : Prop :=
  ∀ (s : State) (addr : Addr), ∃ t : State, exec (.lda addr) s = .next t ∧
    t.a = operandValue s addr ∧ t.status = s.status ∧ t.sp = s.sp ∧ t.pc = s.pc ∧ t.phase = s.phase ∧ t.mem = s.mem ∧
    t.cache.lookup addr = .hit (operandValue s addr) ∧
    (∀ v, s.cache.lookup addr = .hit v → t.cache = s.cache) ∧
    (s.cache.lookup addr = .miss → t.cache = s.cache.update addr (operandValue s addr)) ∧
    t.log = s.log ++ (if s.cache.lookup addr = .miss ∧ 2048 ≤ addr.toNat then [.oorRead addr.toNat] else [])

/-- AND (42_load_logic.md R151): A gets A and operand, the operand is cached, N and Z follow the new A; O, C, the other
bits, memory and the other registers are kept. -/
def Obligations.AndMasksTheAccumulator : Prop :=
  ∀ (s : State) (addr : Addr), ∃ t : State, exec (.and addr) s = .next t ∧
    (∀ j, t.a.getLsbD j = (s.a.getLsbD j && (operandValue s addr).getLsbD j)) ∧
    t.flagN = t.a.getLsbD 7 ∧ (t.flagZ = true ↔ t.a = 0#8) ∧
    (∀ j, j ≠ 0 → j ≠ 5 → t.status.getLsbD j = s.status.getLsbD j) ∧
    t.sp = s.sp ∧ t.pc = s.pc ∧ t.phase = s.phase ∧ t.mem = s.mem ∧
    t.cache.lookup addr = .hit (operandValue s addr) ∧
    (∀ v, s.cache.lookup addr = .hit v → t.cache = s.cache) ∧
    (s.cache.lookup addr = .miss → t.cache = s.cache.update addr (operandValue s addr)) ∧
    t.log = s.log ++ (if s.cache.lookup addr = .miss ∧ 2048 ≤ addr.toNat then [.oorRead addr.toNat] else [])

/-- EOR (42_load_logic.md R152), its encoding included: A gets A exclusive-or operand, N and Z follow the new A; O, C,
the other bits, the cache, memory and the other registers are kept. -/
def Obligations.EorTogglesTheAccumulator : Prop :=
  ∀ (s : State) (addr : Addr), encode (.eor addr) = [0x04#8, addr.extractLsb' 8 8, addr.extractLsb' 0 8] ∧
    ∃ t : State, exec (.eor addr) s = .next t ∧
    (∀ j, t.a.getLsbD j = (s.a.getLsbD j ^^ (operandValue s addr).getLsbD j)) ∧
    t.flagN = t.a.getLsbD 7 ∧ (t.flagZ = true ↔ t.a = 0#8) ∧
    (∀ j, j ≠ 0 → j ≠ 5 → t.status.getLsbD j = s.status.getLsbD j) ∧
    t.sp = s.sp ∧ t.pc = s.pc ∧ t.phase = s.phase ∧ t.mem = s.mem ∧ t.cache = s.cache ∧
    t.log = s.log ++ (if s.cache.lookup addr = .miss ∧ 2048 ≤ addr.toNat then [.oorRead addr.toNat] else [])

/-- JMP (43_control.md R160): PC gets the target and nothing else changes; in the loop the advance follows, so that the
next fetch is at (target + 3) mod 2^16 (the wrap is 92_eei_decisions.md D8). -/
def Obligations.JmpSetsPcThenTheLoopAdvances : Prop :=
  ∀ (s : State) (addr : Addr), exec (.jmp addr) s = .next { s with pc := addr } ∧
    ∀ bound : Addr, s.phase = .running bound → s.pc < bound →
      decodeBytes chip.opcodeDecode (readValue s.mem s.pc.toNat) (readValue s.mem (s.pc.toNat + 1))
        (readValue s.mem (s.pc.toNat + 2)) = .ok (.jmp addr) →
      ∃ t : State, step s = .next t ∧ t.pc.toNat = (addr.toNat + 3) % 65536 ∧ t.sp = s.sp ∧ t.a = s.a ∧
        t.status = s.status ∧ t.cache = s.cache ∧ t.mem = s.mem ∧ t.phase = s.phase ∧ t.log = s.log ++ fetchReports s.pc

/-- PSH (44_stack.md R170): A is written at SP if SP is in the stack segment, else only a report is made; SP moves up by
one mod 2^16 whatever the outcome (92_eei_decisions.md D7); A, STATUS, the cache and every other byte are kept. -/
def Obligations.PshWritesAtSpAndMovesItUp : Prop :=
  ∀ (s : State) (ignored : Addr), s.mem.wf = true → ∃ t : State, exec (.psh ignored) s = .next t ∧
    t.sp.toNat = (s.sp.toNat + 1) % 65536 ∧ t.a = s.a ∧ t.status = s.status ∧ t.cache = s.cache ∧ t.pc = s.pc ∧
    t.phase = s.phase ∧
    (∀ k, t.mem.get k = if k = s.sp.toNat ∧ 256 ≤ k ∧ k < 512 then s.a else s.mem.get k) ∧
    t.log = s.log ++ (if 2048 ≤ s.sp.toNat then [.oorWrite .stack s.sp s.a]
      else if s.sp.toNat < 256 ∨ 512 ≤ s.sp.toNat then [.segWrite .stack s.sp s.a] else [])

/-- POP (44_stack.md R171): SP moves down by one mod 2^16 (92_eei_decisions.md D7), and A gets the byte of memory at the
new SP, whatever the cache holds for it, 0xFF with a report out of range; STATUS, cache and memory are kept. -/
def Obligations.PopReadsMemoryBelowSp : Prop :=
  ∀ (s : State) (ignored : Addr), ∃ t : State, exec (.pop ignored) s = .next t ∧
    t.sp.toNat = (s.sp.toNat + 65535) % 65536 ∧
    t.a = (if t.sp.toNat < 2048 then s.mem.get t.sp.toNat else 0xFF#8) ∧
    t.status = s.status ∧ t.cache = s.cache ∧ t.mem = s.mem ∧ t.pc = s.pc ∧ t.phase = s.phase ∧
    t.log = s.log ++ (if t.sp.toNat < 2048 then [] else [.oorRead t.sp.toNat])

/-- An undefined opcode (45_undefined.md R180) makes exactly one report and changes nothing else; in the loop, at the
default `opcode_decode` (92_eei_decisions.md D2, log entry 2), PC advances by 3. The record's form is D14. -/
def Obligations.UndefinedOpcodeReportsAndDoesNothing : Prop :=
  ∀ (s : State) (opcode : Byte) (ignored : Addr),
    exec (.undefined opcode ignored) s = .next { s with log := s.log ++ [.undefOpcode s.pc opcode] } ∧
    ∀ bound : Addr, s.phase = .running bound → s.pc < bound → s.pc.toNat + 2 < 2048 →
      s.mem.get s.pc.toNat = opcode → 8 ≤ opcode.toNat →
      step s = .next { s with pc := s.pc + 3#16, log := s.log ++ [.undefOpcode s.pc opcode] }

/-! ### Flags, cache policy and frames over all instructions -/

/-- STATUS bits over all instructions, under every setting of the parameters: ADC and SBC write only N, O, Z and C, AND
and EOR only N and Z, no other instruction writes STATUS, and no instruction writes a reserved bit
(40_fetch_execute.md R120, 10_state.md R29). -/
def Obligations.FlagWritesTouchOnlyTheirBits : Prop :=
  ∀ (p : Config.Params) (i : Instr) (s : State) (j : Nat),
    ((executeWith p i s).status.getLsbD j ≠ s.status.getLsbD j →
      (j = 0 ∨ j = 5) ∧ (∃ w, i = .adc w ∨ i = .sbc w ∨ i = .and w ∨ i = .eor w) ∨
      (j = 1 ∨ j = 6) ∧ (∃ w, i = .adc w ∨ i = .sbc w)) ∧
    (executeWith p i s).status &&& 0b10011100#8 = s.status &&& 0b10011100#8

/-- The carry under each `carry_mode`, for ADC and SBC: 0 under `truncated`; under `wide` whether the exact sum passes
255, or the exact difference is below 0, which is the same test on the 9-bit difference (40_fetch_execute.md R118). -/
def Obligations.CarryUnderEachMode : Prop :=
  ∀ (p : Config.Params) (addr : Addr) (s : State) (v : Byte) (diff : Int), v = operandValue s addr →
    diff = (v.toNat : Int) - s.a.toNat - s.flagC.toNat →
    (p.carryMode = .truncated → (executeWith p (.adc addr) s).flagC = false ∧ (executeWith p (.sbc addr) s).flagC = false) ∧
    (p.carryMode = .wide →
      ((executeWith p (.adc addr) s).flagC = true ↔ s.a.toNat + v.toNat + s.flagC.toNat > 255) ∧
      ((executeWith p (.sbc addr) s).flagC = true ↔ diff < 0) ∧
      ((executeWith p (.sbc addr) s).flagC = true ↔ diff % 512 > 255))

/-- SBC's overflow under each `sbc_o_mode`: ADC's expression, or the signed overflow of value - A - C
(40_fetch_execute.md R119; the formula of `true_signed` is the spec's G3). -/
def Obligations.SbcOverflowUnderEachMode : Prop :=
  ∀ (p : Config.Params) (addr : Addr) (s : State) (v r : Byte), v = operandValue s addr →
    r = BitVec.ofInt 8 ((v.toNat : Int) - s.a.toNat - s.flagC.toNat) →
    (p.sbcOMode = .adcStructure → ((executeWith p (.sbc addr) s).flagO = true ↔ s.a.msb = v.msb ∧ s.a.msb ≠ r.msb)) ∧
    (p.sbcOMode = .trueSigned → ((executeWith p (.sbc addr) s).flagO = true ↔ v.msb ≠ s.a.msb ∧ v.msb ≠ r.msb) ∧
      ((executeWith p (.sbc addr) s).flagO = true ↔
        v.toInt - s.a.toInt - s.flagC.toNat < -128 ∨ 127 < v.toInt - s.a.toInt - s.flagC.toNat))

/-- ADC's O is signed overflow: set exactly when the exact signed sum is no signed byte (10_state.md R24, R26,
40_fetch_execute.md R117). -/
def Obligations.AdcOverflowIsSignedOverflow : Prop :=
  ∀ (p : Config.Params) (addr : Addr) (s : State), (executeWith p (.adc addr) s).flagO = true ↔
    s.a.toInt + (operandValue s addr).toInt + s.flagC.toNat < -128 ∨
    127 < s.a.toInt + (operandValue s addr).toInt + s.flagC.toNat

/-- The cache policy of every operation: ADC and SBC leave the address live with the result and have the effect of one
update, LDA and AND leave it live with the value, no other instruction changes the cache (40_fetch_execute.md R121; the
update whatever the write's outcome is 92_eei_decisions.md D6). -/
def Obligations.CachePolicyOfEachOperation : Prop :=
  ∀ (i : Instr) (s : State), ∃ t : State, exec i s = .next t ∧
    (∀ addr, i = .adc addr → t.cache.lookup addr = .hit (add8 s.a (operandValue s addr) s.flagC) ∧
      t.cache = s.cache.update addr (add8 s.a (operandValue s addr) s.flagC)) ∧
    (∀ addr, i = .sbc addr → t.cache.lookup addr = .hit (sub8 (operandValue s addr) s.a s.flagC) ∧
      t.cache = s.cache.update addr (sub8 (operandValue s addr) s.a s.flagC)) ∧
    (∀ addr, i = .lda addr ∨ i = .and addr → t.cache.lookup addr = .hit (operandValue s addr) ∧
      (∀ v, s.cache.lookup addr = .hit v → t.cache = s.cache)) ∧
    ((∀ addr, i ≠ .adc addr ∧ i ≠ .sbc addr ∧ i ≠ .lda addr ∧ i ≠ .and addr) → t.cache = s.cache)

/-- Which register and which byte an instruction may change, over all instructions and settings: PC only JMP, SP only
PSH and POP, A only LDA, AND, EOR and POP, the phase none, a byte of memory only ADC and SBC at their address in the
data segment and PSH at SP in the stack segment (10_state.md R30, R21, R22, R23). -/
def Obligations.OnlyTheNamedStateChanges : Prop :=
  ∀ (p : Config.Params) (i : Instr) (s : State), s.mem.wf = true →
    ((executeWith p i s).pc ≠ s.pc → ∃ w, i = .jmp w) ∧
    ((executeWith p i s).sp ≠ s.sp → ∃ w, i = .psh w ∨ i = .pop w) ∧
    ((executeWith p i s).a ≠ s.a → ∃ w, i = .lda w ∨ i = .and w ∨ i = .eor w ∨ i = .pop w) ∧
    (executeWith p i s).phase = s.phase ∧
    ∀ k, (executeWith p i s).mem.get k ≠ s.mem.get k →
      (∃ w, (i = .adc w ∨ i = .sbc w) ∧ k = w.toNat ∧ 512 ≤ k ∧ k < 2048) ∨
      (∃ w, i = .psh w ∧ k = s.sp.toNat ∧ 256 ≤ k ∧ k < 512)

/-- What ADC left at an address is what the next LDA of it loads, in the data segment or not (70_reset_and_hazards.md
R228; outside the data segment by 92_eei_decisions.md D6). -/
def Obligations.LdaAfterAdcLoadsTheSum : Prop :=
  ∀ (s : State) (addr : Addr), ∃ t u : State, exec (.adc addr) s = .next t ∧ exec (.lda addr) t = .next u ∧
    u.a = BitVec.ofNat 8 (s.a.toNat + (operandValue s addr).toNat + s.flagC.toNat) ∧ u.log = t.log

/-- PSH then POP inside the stack segment restores SP and brings the byte back, whatever A and the cache hold between
(95_test_vectors.md W8, 44_stack.md R170, R171). -/
def Obligations.PushThenPopRoundTrip : Prop :=
  ∀ (s : State) (w w' : Addr) (x : Byte) (c : Cache), s.mem.wf = true → 256 ≤ s.sp.toNat → s.sp.toNat < 512 →
    ∃ t u : State, exec (.psh w) s = .next t ∧ exec (.pop w') { t with a := x, cache := c } = .next u ∧
      u.a = s.a ∧ u.sp = s.sp ∧ u.log = s.log

/-! ### The loop -/

/-- A step below the bound runs the decoded instruction on the state the fetch leaves (its out-of-range reports made),
then advances PC by 3; in range the fetch reports nothing (40_fetch_execute.md R112; exact fetch addresses are
92_eei_decisions.md D9, no use of the cache D10, the wrap D8). -/
def Obligations.StepRunsTheDecodedInstruction : Prop :=
  ∀ (s t : State) (bound : Addr) (i : Instr), s.phase = .running bound → s.pc < bound →
    decodeBytes chip.opcodeDecode (readValue s.mem s.pc.toNat) (readValue s.mem (s.pc.toNat + 1))
      (readValue s.mem (s.pc.toNat + 2)) = .ok i →
    exec i { s with log := s.log ++ fetchReports s.pc } = .next t →
    step s = .next { t with pc := t.pc + 3#16 } ∧ (s.pc.toNat + 2 < 2048 → fetchReports s.pc = [])

/-- The run ends at the first step that finds PC not below the bound, which changes only the phase; a run with
start >= end executes nothing; while PC stays below the bound the run goes on, whatever is reported
(40_fetch_execute.md R113). It speaks of the default `opcode_decode`; under `refuse_high` a REFUSED byte has no step
(R112). No clause speaks of a step in Idle. -/
def Obligations.RunEndsExactlyAtTheBound : Prop :=
  (∀ (s : State) (bound : Addr), s.phase = .running bound → ¬ s.pc < bound → step s = .next { s with phase := .idle }) ∧
  (∀ (s : State) (start bound : Addr), s.phase = .idle → ¬ start < bound → ∃ t : State,
    hostCommand (.run start bound) s = .next (t, .done) ∧ step t = .next { s with pc := start }) ∧
  (∀ (s : State) (bound : Addr), s.phase = .running bound → s.pc < bound → ∃ t : State, step s = .next t ∧
    t.phase = .running bound) ∧
  (∀ (s : State) (bound : Addr) (k : Nat), s.phase = .running bound →
    (∀ j, j < k → ∀ u : State, Sys2Proof.core.run j s = .next u → u.pc < bound) →
    ∃ t : State, Sys2Proof.core.run k s = .next t ∧ t.phase = .running bound)

/-- In Idle a step changes nothing: the spec gives the core no transition there; that the model answers the same state
is its own choice (log entry 4). -/
def Obligations.IdleStepChangesNothing : Prop :=
  ∀ s : State, s.phase = .idle → step s = .next s

/-- No condition stops the core at the default `opcode_decode` (under `refuse_high` a REFUSED byte has no step,
40_fetch_execute.md R112; RefuseHighRefusesTheStep). First clause: from every state `step` answers a next state for ever.
In Idle, and so once a run has ended, that next state is the model's own choice, the same state again (log entry 4); the
spec gives the core no transition there. Second clause: a step below the bound keeps the run going and moves PC by 3,
from the target after JMP, whatever the step reports (60_exceptions.md R200, 40_fetch_execute.md R123; the wrap of PC is
92_eei_decisions.md D8). -/
def Obligations.NoConditionStopsTheCore : Prop :=
  (∀ s : State, SafeRun s) ∧
  ∀ (s : State) (bound : Addr), s.phase = .running bound → s.pc < bound → ∃ (i : Instr) (t : State),
    decodeBytes chip.opcodeDecode (readValue s.mem s.pc.toNat) (readValue s.mem (s.pc.toNat + 1))
      (readValue s.mem (s.pc.toNat + 2)) = .ok i ∧ step s = .next t ∧ t.phase = s.phase ∧
    (∀ w, i = .jmp w → t.pc = w + 3#16) ∧ ((∀ w, i ≠ .jmp w) → t.pc = s.pc + 3#16)

/-- Under `opcode_decode = refuse_high` a step that fetches an opcode byte above 0x0F has no next state, and is refused
by name (30_encoding.md R93, 40_fetch_execute.md R112, 93_implementation_defined.md I2). -/
def Obligations.RefuseHighRefusesTheStep : Prop :=
  ∀ (p : Config.Params) (s : State) (bound : Addr), p.opcodeDecode = .refuseHigh → s.phase = .running bound →
    s.pc < bound → 15 < (readValue s.mem s.pc.toNat).toNat →
    stepWith p s = .refused (.refusedOpcode (readValue s.mem s.pc.toNat))

/-- A step past the end of memory is, at the default `opcode_decode` (92_eei_decisions.md D2, log entry 2), a
no-operation with three reads reported and then the undefined opcode 0xFF (45_undefined.md R180,
70_reset_and_hazards.md R230; exact fetch addresses are D9). -/
def Obligations.StepPastMemoryIsAReportedNop : Prop :=
  ∀ (s : State) (bound : Addr), s.phase = .running bound → s.pc < bound → 2048 ≤ s.pc.toNat →
    step s = .next { s with pc := s.pc + 3#16,
                            log := s.log ++ [.oorRead s.pc.toNat, .oorRead (s.pc.toNat + 1), .oorRead (s.pc.toNat + 2),
                                             .undefOpcode s.pc 0xFF#8] }

/-- The reports of a step, in order: the fetch's, then the operation's read or the undefined opcode, then the
operation's write (60_exceptions.md R202, R203; the spec marks both as derived). -/
def Obligations.StepReportsInPseudocodeOrder : Prop :=
  ∀ (s : State) (bound : Addr) (i : Instr), s.phase = .running bound → s.pc < bound →
    decodeBytes chip.opcodeDecode (readValue s.mem s.pc.toNat) (readValue s.mem (s.pc.toNat + 1))
      (readValue s.mem (s.pc.toNat + 2)) = .ok i →
    ∃ t : State, step s = .next t ∧ t.log = s.log ++ fetchReports s.pc ++
      (match i with
        | .adc w => operandReports s w ++ writeReports .data w (add8 s.a (operandValue s w) s.flagC)
        | .sbc w => operandReports s w ++ writeReports .data w (sub8 (operandValue s w) s.a s.flagC)
        | .lda w => operandReports s w
        | .and w => operandReports s w
        | .eor w => operandReports s w
        | .jmp _ => []
        | .psh _ => writeReports .stack s.sp s.a
        | .pop _ => readReports (s.sp - 1#16).toNat
        | .undefined opcode _ => [.undefOpcode s.pc opcode])

/-- The fetch, PSH, POP, JMP, an undefined opcode and every port neither read nor write the cache: with another cache
they do the same (20_memory.md R67). -/
def Obligations.FetchAndStackIgnoreTheCache : Prop :=
  ∀ (s : State) (c : Cache),
    (fetch (s.setCache c)).b0 = (fetch s).b0 ∧ (fetch (s.setCache c)).b1 = (fetch s).b1 ∧
    (fetch (s.setCache c)).b2 = (fetch s).b2 ∧ (fetch (s.setCache c)).after = (fetch s).after.setCache c ∧
    (fetch s).after.cache = s.cache ∧
    (∀ i : Instr, (∃ w, i = .psh w ∨ i = .pop w ∨ i = .jmp w ∨ ∃ b, i = .undefined b w) → ∃ t : State,
      exec i s = .next t ∧ t.cache = s.cache ∧ exec i (s.setCache c) = .next (t.setCache c)) ∧
    (∀ (p : Port) (w : Addr) (v : Byte), (memWrite p w v s).2.cache = s.cache ∧
      memWrite p w v (s.setCache c) = ((memWrite p w v s).1, (memWrite p w v s).2.setCache c)) ∧
    (∀ k : Nat, (memRead k s).2.cache = s.cache ∧
      memRead k (s.setCache c) = ((memRead k s).1, (memRead k s).2.setCache c))

/-- The report log is an output: a step only appends to it, at most five records, and neither what it appends nor
anything else it does depends on what the log holds (10_state.md R36; the log's form is 92_eei_decisions.md D14). -/
def Obligations.ReportLogIsNeverRead : Prop :=
  ∀ (p : Config.Params) (s t : State), stepWith p s = .next t → ∃ new : List Report, new.length ≤ 5 ∧
    ∀ l : List Report, stepWith p { s with log := l } = .next { t with log := l ++ new }

/-! ### Invariants -/

/-- The invariant holds after reset. -/
def Obligations.ResetStateMeetsTheInvariant : Prop := State.reset.inv = true

/-- Every step of the core, and every move of either agent under every setting, keeps the invariant: memory in its one
form and inside [0, 2048), live cache addresses distinct, reserved STATUS bits 0 (10_state.md R29, R39, 20_memory.md
R50). -/
def Obligations.EveryMoveKeepsTheInvariant : Prop :=
  (∀ s t : State, s.inv = true → step s = .next t → t.inv = true) ∧
  ∀ (p : Config.Params) (e : Event) (s t : State), s.inv = true → sysStep p e s = .next t → t.inv = true

/-- In every state the two agents can reach from reset, the live cache addresses are distinct, at most three are live,
and the reserved STATUS bits read 0 (10_state.md R39, R29; the spec marks both as derived). A corollary of ResetStateMeetsTheInvariant and EveryMoveKeepsTheInvariant, which is the step
lemma. -/
def Obligations.ReachableStatesKeepCacheAndReservedBits : Prop :=
  ∀ (p : Config.Params) (s : State), Reachable p s →
    (s.cache.live.map CacheEntry.addr).Nodup ∧ s.cache.live.length ≤ 3 ∧
    s.status.getLsbD 2 = false ∧ s.status.getLsbD 3 = false ∧ s.status.getLsbD 4 = false ∧ s.status.getLsbD 7 = false

/-- With `carry_mode = truncated` C is 0 in every reachable state, and no move can set it (10_state.md R40; the spec
marks it as derived). -/
def Obligations.TruncatedCarryStaysClear : Prop :=
  ∀ p : Config.Params, p.carryMode = .truncated →
    (∀ (e : Event) (s t : State), s.flagC = false → sysStep p e s = .next t → t.flagC = false) ∧
    ∀ s : State, Reachable p s → s.flagC = false

/-- No instruction and no step writes the instruction segment; of the host's commands only `writeInstructionByte`, and
RESET, which makes memory anew, can change it (10_state.md R41; the spec marks it as derived). -/
def Obligations.InstructionSegmentIsWrittenOnlyByItsPort : Prop :=
  ∀ (p : Config.Params) (e : Event) (s t : State), s.mem.wf = true → sysStep p e s = .next t →
    e ≠ .host .reset → (∀ w v, e ≠ .host (.writeInstructionByte w v)) → ∀ k, k < 256 → t.mem.get k = s.mem.get k

/-- The paths on which an instruction leaves a stale entry are the listed ones: with a coherent cache, every instruction
keeps it coherent except PSH onto a live address, ADC or SBC outside the data segment, and LDA or AND out of range; and
on these the entry does go stale where the values differ (20_memory.md R66; items 2 and 3 rest on 92_eei_decisions.md
D6, D11). -/
def Obligations.StaleEntriesComeOnlyFromTheListedPaths : Prop :=
  ∀ (p : Config.Params) (i : Instr) (s : State), s.inv = true →
    (s.coherent → (∀ w, i = .psh w → s.cache.lookup s.sp = .miss) →
      (∀ w, i = .adc w ∨ i = .sbc w → 512 ≤ w.toNat ∧ w.toNat < 2048) →
      (∀ w, i = .lda w ∨ i = .and w → w.toNat < 2048) → (executeWith p i s).coherent) ∧
    (∀ w v, i = .psh w → s.cache.lookup s.sp = .hit v → v ≠ s.a → 256 ≤ s.sp.toNat → s.sp.toNat < 512 →
      ¬ (executeWith p i s).freshAt s.sp) ∧
    (∀ w, i = .adc w → w.toNat < 512 → s.mem.get w.toNat ≠ add8 s.a (operandValue s w) s.flagC →
      ¬ (executeWith p i s).freshAt w) ∧
    (∀ w, i = .sbc w → w.toNat < 512 → s.mem.get w.toNat ≠ sub8 (operandValue s w) s.a s.flagC →
      ¬ (executeWith p i s).freshAt w) ∧
    (∀ w, i = .adc w ∨ i = .sbc w ∨ i = .lda w ∨ i = .and w → 2048 ≤ w.toNat → ¬ (executeWith p i s).freshAt w)

/-- A word placed by the model's own `withFetchWord` is what the very next step runs, as the table numbers its bits
(log entries 5 and 9), decoded at the default `opcode_decode` (log entry 2). -/
def Obligations.PlacedWordRunsNext : Prop :=
  ∀ (s : State) (w : Nat) (i : Instr), s.mem.wf = true → decodeTableWord 24 w = some i → ∃ t : State,
    exec i (s.withFetchWord 24 w) = .next t ∧ step (s.withFetchWord 24 w) = .next { t with pc := t.pc + 3#16 } ∧
    (s.withFetchWord 24 w).a = s.a ∧ (s.withFetchWord 24 w).sp = s.sp ∧ (s.withFetchWord 24 w).status = s.status ∧
    (s.withFetchWord 24 w).cache = s.cache ∧ (s.withFetchWord 24 w).log = s.log
end

