-- ==== Sys2Proof/Laws/State.lean ====
section
/-! SUPPORT. What each update of the state leaves in each field: one lemma a field an update, so that no later proof
unfolds a record update. -/

namespace Sys2Proof.Machine

/-- Two states with the same eight fields are the same state. -/
@[ext] theorem State.ext_fields (s t : State) (pc : s.pc = t.pc) (sp : s.sp = t.sp) (a : s.a = t.a)
    (status : s.status = t.status) (cache : s.cache = t.cache) (mem : s.mem = t.mem) (phase : s.phase = t.phase)
    (log : s.log = t.log) : s = t := by
  cases s; cases t; simp_all

variable (s : State)

@[simp] theorem State.setPc_pc (v : Addr) : (s.setPc v).pc = v := rfl
@[simp] theorem State.setPc_sp (v : Addr) : (s.setPc v).sp = s.sp := rfl
@[simp] theorem State.setPc_a (v : Addr) : (s.setPc v).a = s.a := rfl
@[simp] theorem State.setPc_status (v : Addr) : (s.setPc v).status = s.status := rfl
@[simp] theorem State.setPc_cache (v : Addr) : (s.setPc v).cache = s.cache := rfl
@[simp] theorem State.setPc_mem (v : Addr) : (s.setPc v).mem = s.mem := rfl
@[simp] theorem State.setPc_phase (v : Addr) : (s.setPc v).phase = s.phase := rfl
@[simp] theorem State.setPc_log (v : Addr) : (s.setPc v).log = s.log := rfl

@[simp] theorem State.setSp_pc (v : Addr) : (s.setSp v).pc = s.pc := rfl
@[simp] theorem State.setSp_sp (v : Addr) : (s.setSp v).sp = v := rfl
@[simp] theorem State.setSp_a (v : Addr) : (s.setSp v).a = s.a := rfl
@[simp] theorem State.setSp_status (v : Addr) : (s.setSp v).status = s.status := rfl
@[simp] theorem State.setSp_cache (v : Addr) : (s.setSp v).cache = s.cache := rfl
@[simp] theorem State.setSp_mem (v : Addr) : (s.setSp v).mem = s.mem := rfl
@[simp] theorem State.setSp_phase (v : Addr) : (s.setSp v).phase = s.phase := rfl
@[simp] theorem State.setSp_log (v : Addr) : (s.setSp v).log = s.log := rfl

@[simp] theorem State.setA_pc (v : Byte) : (s.setA v).pc = s.pc := rfl
@[simp] theorem State.setA_sp (v : Byte) : (s.setA v).sp = s.sp := rfl
@[simp] theorem State.setA_a (v : Byte) : (s.setA v).a = v := rfl
@[simp] theorem State.setA_status (v : Byte) : (s.setA v).status = s.status := rfl
@[simp] theorem State.setA_cache (v : Byte) : (s.setA v).cache = s.cache := rfl
@[simp] theorem State.setA_mem (v : Byte) : (s.setA v).mem = s.mem := rfl
@[simp] theorem State.setA_phase (v : Byte) : (s.setA v).phase = s.phase := rfl
@[simp] theorem State.setA_log (v : Byte) : (s.setA v).log = s.log := rfl

@[simp] theorem State.setStatus_pc (v : Byte) : (s.setStatus v).pc = s.pc := rfl
@[simp] theorem State.setStatus_sp (v : Byte) : (s.setStatus v).sp = s.sp := rfl
@[simp] theorem State.setStatus_a (v : Byte) : (s.setStatus v).a = s.a := rfl
@[simp] theorem State.setStatus_status (v : Byte) : (s.setStatus v).status = v := rfl
@[simp] theorem State.setStatus_cache (v : Byte) : (s.setStatus v).cache = s.cache := rfl
@[simp] theorem State.setStatus_mem (v : Byte) : (s.setStatus v).mem = s.mem := rfl
@[simp] theorem State.setStatus_phase (v : Byte) : (s.setStatus v).phase = s.phase := rfl
@[simp] theorem State.setStatus_log (v : Byte) : (s.setStatus v).log = s.log := rfl

@[simp] theorem State.setCache_pc (v : Cache) : (s.setCache v).pc = s.pc := rfl
@[simp] theorem State.setCache_sp (v : Cache) : (s.setCache v).sp = s.sp := rfl
@[simp] theorem State.setCache_a (v : Cache) : (s.setCache v).a = s.a := rfl
@[simp] theorem State.setCache_status (v : Cache) : (s.setCache v).status = s.status := rfl
@[simp] theorem State.setCache_cache (v : Cache) : (s.setCache v).cache = v := rfl
@[simp] theorem State.setCache_mem (v : Cache) : (s.setCache v).mem = s.mem := rfl
@[simp] theorem State.setCache_phase (v : Cache) : (s.setCache v).phase = s.phase := rfl
@[simp] theorem State.setCache_log (v : Cache) : (s.setCache v).log = s.log := rfl

@[simp] theorem State.setMem_pc (v : Memory) : (s.setMem v).pc = s.pc := rfl
@[simp] theorem State.setMem_sp (v : Memory) : (s.setMem v).sp = s.sp := rfl
@[simp] theorem State.setMem_a (v : Memory) : (s.setMem v).a = s.a := rfl
@[simp] theorem State.setMem_status (v : Memory) : (s.setMem v).status = s.status := rfl
@[simp] theorem State.setMem_cache (v : Memory) : (s.setMem v).cache = s.cache := rfl
@[simp] theorem State.setMem_mem (v : Memory) : (s.setMem v).mem = v := rfl
@[simp] theorem State.setMem_phase (v : Memory) : (s.setMem v).phase = s.phase := rfl
@[simp] theorem State.setMem_log (v : Memory) : (s.setMem v).log = s.log := rfl

@[simp] theorem State.setPhase_pc (v : Phase) : (s.setPhase v).pc = s.pc := rfl
@[simp] theorem State.setPhase_sp (v : Phase) : (s.setPhase v).sp = s.sp := rfl
@[simp] theorem State.setPhase_a (v : Phase) : (s.setPhase v).a = s.a := rfl
@[simp] theorem State.setPhase_status (v : Phase) : (s.setPhase v).status = s.status := rfl
@[simp] theorem State.setPhase_cache (v : Phase) : (s.setPhase v).cache = s.cache := rfl
@[simp] theorem State.setPhase_mem (v : Phase) : (s.setPhase v).mem = s.mem := rfl
@[simp] theorem State.setPhase_phase (v : Phase) : (s.setPhase v).phase = v := rfl
@[simp] theorem State.setPhase_log (v : Phase) : (s.setPhase v).log = s.log := rfl

@[simp] theorem State.addReport_pc (r : Report) : (s.addReport r).pc = s.pc := rfl
@[simp] theorem State.addReport_sp (r : Report) : (s.addReport r).sp = s.sp := rfl
@[simp] theorem State.addReport_a (r : Report) : (s.addReport r).a = s.a := rfl
@[simp] theorem State.addReport_status (r : Report) : (s.addReport r).status = s.status := rfl
@[simp] theorem State.addReport_cache (r : Report) : (s.addReport r).cache = s.cache := rfl
@[simp] theorem State.addReport_mem (r : Report) : (s.addReport r).mem = s.mem := rfl
@[simp] theorem State.addReport_phase (r : Report) : (s.addReport r).phase = s.phase := rfl
@[simp] theorem State.addReport_log (r : Report) : (s.addReport r).log = s.log ++ [r] := rfl

@[simp] theorem State.updateCache_pc (w : Addr) (v : Byte) : (s.updateCache w v).pc = s.pc := rfl
@[simp] theorem State.updateCache_sp (w : Addr) (v : Byte) : (s.updateCache w v).sp = s.sp := rfl
@[simp] theorem State.updateCache_a (w : Addr) (v : Byte) : (s.updateCache w v).a = s.a := rfl
@[simp] theorem State.updateCache_status (w : Addr) (v : Byte) : (s.updateCache w v).status = s.status := rfl
@[simp] theorem State.updateCache_cache (w : Addr) (v : Byte) : (s.updateCache w v).cache = s.cache.update w v := rfl
@[simp] theorem State.updateCache_mem (w : Addr) (v : Byte) : (s.updateCache w v).mem = s.mem := rfl
@[simp] theorem State.updateCache_phase (w : Addr) (v : Byte) : (s.updateCache w v).phase = s.phase := rfl
@[simp] theorem State.updateCache_log (w : Addr) (v : Byte) : (s.updateCache w v).log = s.log := rfl

@[simp] theorem State.advance_pc : s.advance.pc = s.pc + Config.instrLen := rfl
@[simp] theorem State.advance_sp : s.advance.sp = s.sp := rfl
@[simp] theorem State.advance_a : s.advance.a = s.a := rfl
@[simp] theorem State.advance_status : s.advance.status = s.status := rfl
@[simp] theorem State.advance_cache : s.advance.cache = s.cache := rfl
@[simp] theorem State.advance_mem : s.advance.mem = s.mem := rfl
@[simp] theorem State.advance_phase : s.advance.phase = s.phase := rfl
@[simp] theorem State.advance_log : s.advance.log = s.log := rfl

end Sys2Proof.Machine
end

