-- ==== Sys2Proof/Laws/Cache.lean ====
section
/-! SUPPORT. The value cache: what a lookup answers after an update, which entries an update leaves live, and that it
keeps the live addresses distinct (20_memory.md R63, R64, 10_state.md R39). -/

namespace Sys2Proof.Machine

@[simp] theorem slotFind_none (w : Addr) (l : Lookup) : slotFind none w l = l := rfl
@[simp] theorem slotFind_some (e : CacheEntry) (w : Addr) (l : Lookup) :
    slotFind (some e) w l = if e.addr = w then .hit e.value else l := rfl
@[simp] theorem slotHolds_none (w : Addr) : slotHolds none w = false := rfl
@[simp] theorem slotHolds_some (e : CacheEntry) (w : Addr) : slotHolds (some e) w = decide (e.addr = w) := rfl

@[simp] theorem Cache.put_first (c : Cache) (e : CacheEntry) : c.put .first e = ⟨some e, c.slot1, c.slot2⟩ := rfl
@[simp] theorem Cache.put_second (c : Cache) (e : CacheEntry) : c.put .second e = ⟨c.slot0, some e, c.slot2⟩ := rfl
@[simp] theorem Cache.put_third (c : Cache) (e : CacheEntry) : c.put .third e = ⟨c.slot0, c.slot1, some e⟩ := rfl

/-- A slot that does not hold the address is passed over. -/
theorem slotFind_of_not_holds {o : Option CacheEntry} {w : Addr} {l : Lookup} (h : slotHolds o w = false) :
    slotFind o w l = l := by
  cases o <;> simp_all

theorem slotHolds_unique {o : Option CacheEntry} {w b : Addr} (h : slotHolds o w = true) (hb : b ≠ w) :
    slotHolds o b = false := by
  cases o with
  | none => rfl
  | some e =>
    simp only [slotHolds_some, decide_eq_true_eq, decide_eq_false_iff_not] at *
    exact fun h' => hb (h' ▸ h)

/-- The slot an update writes, said once. -/
theorem Cache.slotFor_cases (c : Cache) (w : Addr) :
    (c.slotFor w = .first ∧ slotHolds c.slot0 w = true) ∨
    (c.slotFor w = .second ∧ slotHolds c.slot0 w = false ∧ slotHolds c.slot1 w = true) ∨
    (c.slotFor w = .third ∧ slotHolds c.slot0 w = false ∧ slotHolds c.slot1 w = false ∧ slotHolds c.slot2 w = true) ∨
    (c.slotFor w = c.slotForMiss ∧ slotHolds c.slot0 w = false ∧ slotHolds c.slot1 w = false ∧
      slotHolds c.slot2 w = false) := by
  unfold Cache.slotFor
  cases slotHolds c.slot0 w <;> cases slotHolds c.slot1 w <;> cases slotHolds c.slot2 w <;> simp

/-- The slot a miss fills, said once: a free one with no lower free one, or in a full cache the smallest address. -/
theorem Cache.slotForMiss_cases (c : Cache) :
    (c.slotForMiss = .first ∧ c.slot0 = none) ∨
    (c.slotForMiss = .second ∧ c.slot0 ≠ none ∧ c.slot1 = none) ∨
    (c.slotForMiss = .third ∧ c.slot0 ≠ none ∧ c.slot1 ≠ none ∧ c.slot2 = none) ∨
    ∃ e0 e1 e2, c = ⟨some e0, some e1, some e2⟩ ∧
      (c.slotForMiss = .first ∧ e0.addr ≤ e1.addr ∧ e0.addr ≤ e2.addr ∨
       c.slotForMiss = .second ∧ e1.addr ≤ e0.addr ∧ e1.addr ≤ e2.addr ∨
       c.slotForMiss = .third ∧ e2.addr ≤ e0.addr ∧ e2.addr ≤ e1.addr) := by
  rcases c with ⟨_ | e0, _ | e1, _ | e2⟩
  case some.some.some =>
    refine .inr (.inr (.inr ⟨e0, e1, e2, rfl, ?_⟩))
    simp only [Cache.slotForMiss]
    split
    · next h => exact .inl ⟨rfl, h⟩
    split
    · exact .inr (.inl ⟨rfl, by bv_omega, by assumption⟩)
    · exact .inr (.inr ⟨rfl, by bv_omega, by bv_omega⟩)
  all_goals simp [Cache.slotForMiss]

/-- A lookup of the address just updated hits with the value just stored. -/
@[simp] theorem Cache.lookup_update_self (c : Cache) (w : Addr) (v : Byte) :
    (c.update w v).lookup w = .hit v := by
  unfold Cache.update Cache.lookup
  rcases c.slotFor_cases w with ⟨h, -⟩ | ⟨h, h0, -⟩ | ⟨h, h0, h1, -⟩ | ⟨h, h0, h1, h2⟩
  · simp [h]
  · simp [h, slotFind_of_not_holds h0]
  · simp [h, slotFind_of_not_holds h0, slotFind_of_not_holds h1]
  · rw [h]
    cases c.slotForMiss <;> simp [slotFind_of_not_holds, h0, h1]

/-- An update does not move to another slot when it is repeated. -/
theorem Cache.slotFor_put (c : Cache) (w : Addr) (v : Byte) : (c.put (c.slotFor w) ⟨w, v⟩).slotFor w = c.slotFor w := by
  rcases c.slotFor_cases w with ⟨h, -⟩ | ⟨h, h0, -⟩ | ⟨h, h0, h1, -⟩ | ⟨h, h0, h1, h2⟩
  · rw [h]; simp [Cache.slotFor]
  · rw [h]; simp [Cache.slotFor, h0]
  · rw [h]; simp [Cache.slotFor, h0, h1]
  · rw [h]
    cases c.slotForMiss <;> simp [Cache.slotFor, h0, h1]

/-- An update after an update of the same address is one update: what ADC and SBC do to the cache on a miss
(90_conflicts.md C6). -/
@[simp] theorem Cache.update_update (c : Cache) (w : Addr) (v v' : Byte) :
    (c.update w v).update w v' = c.update w v' := by
  simp only [Cache.update, Cache.slotFor_put]
  cases c.slotFor w <;> rfl

/-- A lookup hits exactly where a live entry holds the pair (20_memory.md R63). -/
theorem Cache.lookup_eq_hit_iff {c : Cache} (h : c.distinct = true) {w : Addr} {v : Byte} :
    c.lookup w = .hit v ↔ (⟨w, v⟩ : CacheEntry) ∈ c.live := by
  rcases c with ⟨_ | ⟨a0, v0⟩, _ | ⟨a1, v1⟩, _ | ⟨a2, v2⟩⟩ <;>
    simp_all [Cache.distinct, Cache.liveAddrs, Cache.live, Cache.lookup] <;> grind

/-- A lookup misses exactly where no live entry holds the address (20_memory.md R63). -/
theorem Cache.lookup_eq_miss_iff (c : Cache) (w : Addr) : c.lookup w = .miss ↔ w ∉ c.liveAddrs := by
  rcases c with ⟨_ | ⟨a0, v0⟩, _ | ⟨a1, v1⟩, _ | ⟨a2, v2⟩⟩ <;>
    simp [Cache.liveAddrs, Cache.live, Cache.lookup] <;> grind

/-- The content of a slot. -/
def Cache.slotAt (c : Cache) : Slot → Option CacheEntry
  | .first => c.slot0
  | .second => c.slot1
  | .third => c.slot2

/-- A write of a slot drops what the slot held, puts the new entry in and keeps the rest. -/
theorem Cache.live_put (c : Cache) (i : Slot) (e : CacheEntry) : ∃ kept : List CacheEntry,
    c.live.Perm ((c.slotAt i).toList ++ kept) ∧ (c.put i e).live.Perm (e :: kept) := by
  cases i with
  | first => exact ⟨c.slot1.toList ++ c.slot2.toList, by simp [Cache.live, Cache.slotAt], by simp [Cache.live]⟩
  | second =>
    refine ⟨c.slot0.toList ++ c.slot2.toList, ?_, ?_⟩
    · simp only [Cache.live, Cache.slotAt]
      rw [← List.append_assoc]
      exact List.perm_append_comm.append_right _
    · simp only [Cache.live, Cache.put_second, Option.toList_some, List.append_assoc, List.singleton_append]
      exact List.perm_middle
  | third =>
    refine ⟨c.slot0.toList ++ c.slot1.toList, ?_, ?_⟩
    · exact List.perm_append_comm
    · simp only [Cache.live, Cache.put_third, Option.toList_some]
      exact List.perm_append_comm

theorem slotHolds_eq_true {o : Option CacheEntry} {w : Addr} (h : slotHolds o w = true) :
    ∃ e, o = some e ∧ e.addr = w := by
  cases o <;> simp_all

theorem slotHolds_eq_false {o : Option CacheEntry} {w : Addr} (h : slotHolds o w = false) :
    ∀ e ∈ o.toList, e.addr ≠ w := by
  cases o <;> simp_all

/-- The entries an update leaves live, in any order: the new one, and the old ones but the one of the same address or,
in a full cache with a miss, the one of the smallest address (20_memory.md R64). -/
theorem Cache.live_update (c : Cache) (w : Addr) (v : Byte) : ∃ gone kept : List CacheEntry,
    c.live.Perm (gone ++ kept) ∧ (c.update w v).live.Perm (⟨w, v⟩ :: kept) ∧
    ((∃ e, gone = [e] ∧ e.addr = w) ∨
     (w ∉ c.liveAddrs ∧ gone = [] ∧ c.live.length < 3) ∨
     (w ∉ c.liveAddrs ∧ c.live.length = 3 ∧ ∃ e, gone = [e] ∧ ∀ e' ∈ c.live, e.addr ≤ e'.addr)) := by
  obtain ⟨kept, hlive, hput⟩ := c.live_put (c.slotFor w) ⟨w, v⟩
  refine ⟨(c.slotAt (c.slotFor w)).toList, kept, hlive, hput, ?_⟩
  rcases c.slotFor_cases w with ⟨h, h0⟩ | ⟨h, -, h1⟩ | ⟨h, -, -, h2⟩ | ⟨h, h0, h1, h2⟩
  · obtain ⟨e, he, hw⟩ := slotHolds_eq_true h0
    exact .inl ⟨e, by simp [h, Cache.slotAt, he], hw⟩
  · obtain ⟨e, he, hw⟩ := slotHolds_eq_true h1
    exact .inl ⟨e, by simp [h, Cache.slotAt, he], hw⟩
  · obtain ⟨e, he, hw⟩ := slotHolds_eq_true h2
    exact .inl ⟨e, by simp [h, Cache.slotAt, he], hw⟩
  · have hmiss : w ∉ c.liveAddrs := by
      simp only [Cache.liveAddrs, Cache.live, List.mem_map, List.mem_append, not_exists, not_and]
      rintro e ((he | he) | he)
      · exact slotHolds_eq_false h0 e he
      · exact slotHolds_eq_false h1 e he
      · exact slotHolds_eq_false h2 e he
    have hlen : ∀ o : Option CacheEntry, o.toList.length ≤ 1 := fun o => by cases o <;> simp
    rw [h]
    rcases c.slotForMiss_cases with ⟨hs, hn⟩ | ⟨hs, -, hn⟩ | ⟨hs, -, -, hn⟩ | ⟨e0, e1, e2, rfl, hs⟩
    · refine .inr (.inl ⟨hmiss, by simp [hs, Cache.slotAt, hn], ?_⟩)
      have := hlen c.slot1; have := hlen c.slot2
      simp only [Cache.live, hn, Option.toList_none, List.nil_append, List.length_append]
      omega
    · refine .inr (.inl ⟨hmiss, by simp [hs, Cache.slotAt, hn], ?_⟩)
      have := hlen c.slot0; have := hlen c.slot2
      simp only [Cache.live, hn, Option.toList_none, List.append_nil, List.length_append]
      omega
    · refine .inr (.inl ⟨hmiss, by simp [hs, Cache.slotAt, hn], ?_⟩)
      have := hlen c.slot0; have := hlen c.slot1
      simp only [Cache.live, hn, Option.toList_none, List.append_nil, List.length_append]
      omega
    · refine .inr (.inr ⟨hmiss, by simp [Cache.live], ?_⟩)
      rcases hs with ⟨hs, ha, hb⟩ | ⟨hs, ha, hb⟩ | ⟨hs, ha, hb⟩ <;> rw [hs]
      · exact ⟨e0, rfl, by simp [Cache.live, ha, hb]⟩
      · exact ⟨e1, rfl, by simp [Cache.live, ha, hb]⟩
      · exact ⟨e2, rfl, by simp [Cache.live, ha, hb]⟩

/-- At most three entries are live (10_state.md R39). -/
theorem Cache.live_length (c : Cache) : c.live.length ≤ 3 := by
  rcases c with ⟨_ | _, _ | _, _ | _⟩ <;> simp [Cache.live]

theorem Cache.distinct_iff (c : Cache) : c.distinct = true ↔ (c.live.map CacheEntry.addr).Nodup := by
  unfold Cache.distinct Cache.liveAddrs
  exact decide_eq_true_iff

/-- An update keeps the live addresses distinct (10_state.md R39). -/
theorem Cache.distinct_update {c : Cache} (h : c.distinct = true) (w : Addr) (v : Byte) :
    (c.update w v).distinct = true := by
  rw [Cache.distinct_iff] at *
  obtain ⟨gone, kept, hlive, hnew, hcase⟩ := c.live_update w v
  have hold := (hlive.map CacheEntry.addr).nodup_iff.1 h
  rw [(hnew.map CacheEntry.addr).nodup_iff, List.map_cons, List.nodup_cons]
  rw [List.map_append, List.nodup_append] at hold
  refine ⟨?_, hold.2.1⟩
  rcases hcase with ⟨e, rfl, he⟩ | ⟨hmiss, -, -⟩ | ⟨hmiss, -, -⟩
  · exact fun hmem => hold.2.2 e.addr (by simp) w hmem he
  all_goals
    intro hmem
    refine hmiss ((hlive.map CacheEntry.addr).mem_iff.2 ?_)
    rw [List.map_append]
    exact List.mem_append_right _ hmem

/-- Every other address looks up as before, except the one a full cache evicts: the smallest (20_memory.md R64). -/
theorem Cache.lookup_update_other {c : Cache} (h : c.distinct = true) {w b : Addr} (hb : b ≠ w) (v : Byte) :
    (c.update w v).lookup b =
      if c.lookup w = .miss ∧ c.live.length = 3 ∧ (∀ e ∈ c.live, b ≤ e.addr) then .miss else c.lookup b := by
  obtain ⟨gone, kept, hlive, hnew, hcase⟩ := c.live_update w v
  have hmem : ∀ x : Byte, (⟨b, x⟩ : CacheEntry) ∈ (c.update w v).live ↔ (⟨b, x⟩ : CacheEntry) ∈ kept := fun x => by
    rw [hnew.mem_iff, List.mem_cons]
    simp [hb]
  have hmem' : ∀ e : CacheEntry, e ∈ c.live ↔ e ∈ gone ∨ e ∈ kept := fun e => by
    rw [hlive.mem_iff, List.mem_append]
  have hnew' := Cache.distinct_update h w v
  have key : ∀ l : Lookup, (∀ x : Byte, l = .hit x ↔ (⟨b, x⟩ : CacheEntry) ∈ kept) → (c.update w v).lookup b = l := by
    intro l hl
    cases l with
    | hit x => exact (Cache.lookup_eq_hit_iff hnew').2 ((hmem x).2 ((hl x).1 rfl))
    | miss =>
      cases hx : (c.update w v).lookup b with
      | miss => rfl
      | hit x => exact absurd ((hl x).2 ((hmem x).1 ((Cache.lookup_eq_hit_iff hnew').1 hx))) (by simp)
  have hnodup := (hlive.map CacheEntry.addr).nodup_iff.1 ((Cache.distinct_iff c).1 h)
  rw [List.map_append, List.nodup_append] at hnodup
  refine key _ fun x => ?_
  have hmiss := Cache.lookup_eq_miss_iff c w
  split
  · next hc =>
    simp only [reduceCtorEq, false_iff]
    intro hk
    rcases hcase with ⟨e, rfl, he⟩ | ⟨-, -, hlen⟩ | ⟨-, -, e, rfl, hmin⟩
    · refine absurd (hmiss.1 hc.1) (not_not.2 ?_)
      exact List.mem_map.2 ⟨e, (hmem' e).2 (.inl (by simp)), he⟩
    · omega
    · have h1 := hmin ⟨b, x⟩ ((hmem' _).2 (.inr hk))
      have h2 := hc.2.2 e ((hmem' _).2 (.inl (by simp)))
      have heq : e.addr = b := by simp only at h1; bv_omega
      exact hnodup.2.2 e.addr (by simp) b (List.mem_map.2 ⟨_, hk, rfl⟩) heq
  · next hc =>
    rw [Cache.lookup_eq_hit_iff h, hmem']
    refine ⟨fun hx => hx.resolve_left fun hg => ?_, .inr⟩
    rcases hcase with ⟨e, rfl, he⟩ | ⟨-, rfl, -⟩ | ⟨hm, hlen, e, rfl, hmin⟩
    · rw [List.mem_singleton] at hg
      exact hb (by rw [← he, ← hg])
    · exact absurd hg (by simp)
    · rw [List.mem_singleton] at hg
      exact hc ⟨hmiss.2 hm, hlen, fun e' he' => by have := hmin e' he'; rw [← hg] at this; exact this⟩

/-- Lookups do not depend on which slot holds which entry (10_state.md R33). -/
theorem Cache.lookup_congr {c d : Cache} (h : c.distinct = true) (hp : c.live.Perm d.live) (w : Addr) :
    c.lookup w = d.lookup w := by
  have hd : d.distinct = true := by
    rw [Cache.distinct_iff] at *
    exact (hp.map _).nodup_iff.1 h
  cases hx : d.lookup w with
  | hit v => rw [Cache.lookup_eq_hit_iff hd] at hx; rw [Cache.lookup_eq_hit_iff h]; exact hp.mem_iff.2 hx
  | miss =>
    rw [Cache.lookup_eq_miss_iff] at *
    exact fun hm => hx ((hp.map CacheEntry.addr).mem_iff.1 hm)

end Sys2Proof.Machine
end

