-- ==== Sys2Proof/Laws/Decode.lean ====
section
/-! SUPPORT. The small lemmas of the decoder and the encoder (30_encoding.md R91 to R94). -/

namespace Sys2Proof

/-- The big-endian operand is the two bytes side by side, the one at PC+1 high (30_encoding.md R92). -/
theorem operandOf_eq_append (b1 b2 : Byte) : operandOf b1 b2 = b1 ++ b2 := by
  apply BitVec.eq_of_getLsbD_eq
  intro i hi
  rw [BitVec.getLsbD_append]
  by_cases h : i < 8
  · simp [operandOf, h, hi]
  · simp [operandOf, h, hi, BitVec.getLsbD_of_ge b2 i (by omega)]

theorem operandOf_toNat (b1 b2 : Byte) : (operandOf b1 b2).toNat = 256 * b1.toNat + b2.toNat := by
  rw [operandOf_eq_append, BitVec.toNat_append, ← Nat.shiftLeft_add_eq_or_of_lt b2.isLt, Nat.shiftLeft_eq]
  omega

/-- The operand's two bytes give it back. -/
@[simp] theorem operandOf_bytes (w : Addr) : operandOf (w.extractLsb' 8 8) (w.extractLsb' 0 8) = w := by
  apply BitVec.eq_of_toNat_eq
  rw [operandOf_toNat]
  simp only [BitVec.extractLsb'_toNat]
  omega

@[simp] theorem operandOf_high (b1 b2 : Byte) : (operandOf b1 b2).extractLsb' 8 8 = b1 := by
  apply BitVec.eq_of_toNat_eq
  simp only [BitVec.extractLsb'_toNat, operandOf_toNat]
  omega

@[simp] theorem operandOf_low (b1 b2 : Byte) : (operandOf b1 b2).extractLsb' 0 8 = b2 := by
  apply BitVec.eq_of_toNat_eq
  simp only [BitVec.extractLsb'_toNat, operandOf_toNat]
  omega

/-- Opcode values from 8 on have no operation (30_encoding.md R94). -/
theorem opOf_eq_none {n : Nat} (h : 8 ≤ n) : opOf n = none := by
  unfold opOf
  split <;> first | omega | rfl

/-- Opcode values below 8 have one (30_encoding.md R94). -/
theorem opOf_eq_some {n : Nat} (h : n ≤ 7) : ∃ op, opOf n = some op := by
  have hall : ∀ n, n < 8 → (opOf n).isSome = true := by decide
  exact Option.isSome_iff_exists.1 (hall n (by omega))

end Sys2Proof
end

