-- ==== Sys2Proof/Laws/Flags.lean ====
section
/-! SUPPORT. What a flag write leaves in every bit of STATUS (40_fetch_execute.md R120). -/

namespace Sys2Proof.Machine

/-- The bit written has its value, every other bit keeps its own. -/
@[simp] theorem getLsbD_writeBit (st : Byte) (i j : Nat) (b : Bool) :
    (writeBit st i b).getLsbD j = if j = i ∧ j < 8 then b else st.getLsbD j := by
  unfold writeBit
  by_cases hj : j < 8
  · by_cases hij : j = i
    · subst hij
      cases b <;> simp [hj]
    · cases b <;> simp [hj, hij]
  · have hge : 8 ≤ j := Nat.le_of_not_lt hj
    simp only [BitVec.getLsbD_of_ge _ j hge, hj, and_false, if_false]

/-- AND and EOR write N and Z and keep the other bits. -/
theorem getLsbD_writeNZ (st r : Byte) (j : Nat) :
    (writeNZ st r).getLsbD j = if j = Config.bitN then nOf r else if j = Config.bitZ then zOf r else st.getLsbD j := by
  simp only [writeNZ, getLsbD_writeBit, Config.bitN, Config.bitZ]
  by_cases h0 : j = 0
  · simp [h0]
  · by_cases h5 : j = 5 <;> simp [h0, h5]

/-- ADC and SBC write N, O, Z and C and keep the other bits. -/
theorem getLsbD_writeNOZC (st r : Byte) (o c : Bool) (j : Nat) :
    (writeNOZC st r o c).getLsbD j =
      if j = Config.bitN then nOf r else if j = Config.bitO then o else if j = Config.bitZ then zOf r
      else if j = Config.bitC then c else st.getLsbD j := by
  simp only [writeNOZC, getLsbD_writeBit, getLsbD_writeNZ, Config.bitN, Config.bitO, Config.bitZ, Config.bitC]
  by_cases h0 : j = 0
  · simp [h0]
  by_cases h1 : j = 1
  · simp [h1]
  by_cases h5 : j = 5
  · simp [h5]
  by_cases h6 : j = 6 <;> simp [h0, h1, h5, h6]

theorem writeNZ_bitN (st r : Byte) : (writeNZ st r).getLsbD Config.bitN = nOf r := by
  rw [getLsbD_writeNZ, if_pos rfl]

theorem writeNZ_bitZ (st r : Byte) : (writeNZ st r).getLsbD Config.bitZ = zOf r := by
  rw [getLsbD_writeNZ, if_neg (by decide), if_pos rfl]

theorem writeNOZC_bitN (st r : Byte) (o c : Bool) : (writeNOZC st r o c).getLsbD Config.bitN = nOf r := by
  rw [getLsbD_writeNOZC, if_pos rfl]

theorem writeNOZC_bitO (st r : Byte) (o c : Bool) : (writeNOZC st r o c).getLsbD Config.bitO = o := by
  rw [getLsbD_writeNOZC, if_neg (by decide), if_pos rfl]

theorem writeNOZC_bitZ (st r : Byte) (o c : Bool) : (writeNOZC st r o c).getLsbD Config.bitZ = zOf r := by
  rw [getLsbD_writeNOZC, if_neg (by decide), if_neg (by decide), if_pos rfl]

theorem writeNOZC_bitC (st r : Byte) (o c : Bool) : (writeNOZC st r o c).getLsbD Config.bitC = c := by
  rw [getLsbD_writeNOZC, if_neg (by decide), if_neg (by decide), if_neg (by decide), if_pos rfl]

/-- The sign bit of a byte as a number (00_scope.md R7). -/
theorem signBit_eq (x : Byte) : x.getLsbD 7 = decide (128 ≤ x.toNat) := by
  revert x
  decide

theorem nOf_eq (r : Byte) : nOf r = decide (128 ≤ r.toNat) := signBit_eq r

theorem zOf_eq (r : Byte) : zOf r = decide (r.toNat = 0) := by
  revert r
  decide

/-- ADC's overflow expression in numbers: operands of one sign, a result of the other (40_fetch_execute.md R117). -/
theorem oAdd_iff (x v r : Byte) :
    oAdd x v r = true ↔ (x.toNat < 128 ↔ v.toNat < 128) ∧ ¬ (x.toNat < 128 ↔ r.toNat < 128) := by
  simp only [oAdd, BitVec.getLsbD_xor]
  simp only [signBit_eq]
  generalize x.toNat = i
  generalize v.toNat = j
  generalize r.toNat = k
  by_cases hi : i < 128 <;> by_cases hj : j < 128 <;> by_cases hk : k < 128 <;>
    simp [hi, hj, hk, ← Nat.not_lt]

/-- Two STATUS values with the same eight bits are the same. -/
theorem status_ext {x y : Byte} (h : ∀ j, x.getLsbD j = y.getLsbD j) : x = y := by
  apply BitVec.eq_of_getLsbD_eq
  exact fun i _ => h i

/-- Masking the reserved bits away looks at bits 2, 3, 4 and 7. -/
theorem reserved_zero_iff (st : Byte) : st &&& Config.reservedMask = 0#8 ↔
    st.getLsbD 2 = false ∧ st.getLsbD 3 = false ∧ st.getLsbD 4 = false ∧ st.getLsbD 7 = false := by
  revert st
  decide

@[simp] theorem writeNZ_reserved (st r : Byte) :
    writeNZ st r &&& Config.reservedMask = st &&& Config.reservedMask := by
  apply status_ext
  intro j
  simp only [BitVec.getLsbD_and, getLsbD_writeNZ, Config.bitN, Config.bitZ]
  by_cases h0 : j = 0
  · simp [h0, Config.reservedMask]
  by_cases h5 : j = 5 <;> simp [h0, h5, Config.reservedMask]

@[simp] theorem writeNOZC_reserved (st r : Byte) (o c : Bool) :
    writeNOZC st r o c &&& Config.reservedMask = st &&& Config.reservedMask := by
  apply status_ext
  intro j
  simp only [BitVec.getLsbD_and, getLsbD_writeNOZC, Config.bitN, Config.bitO, Config.bitZ, Config.bitC]
  by_cases h0 : j = 0
  · simp [h0, Config.reservedMask]
  by_cases h1 : j = 1
  · simp [h1, Config.reservedMask]
  by_cases h5 : j = 5
  · simp [h5, Config.reservedMask]
  by_cases h6 : j = 6 <;> simp [h0, h1, h5, h6, Config.reservedMask]

end Sys2Proof.Machine
end

