-- ==== Sys2Proof/Laws/Memory.lean ====
section
/-! SUPPORT. The memory array: read after write, and that a write keeps the one form of a memory. -/

namespace Sys2Proof.Machine

theorem Memory.wfFrom_cons {lo j : Nat} {x : Byte} {rest : Memory} :
    Memory.wfFrom lo ((j, x) :: rest) = true ↔
      lo ≤ j ∧ j < Config.memSize ∧ x ≠ Config.resetByte ∧ Memory.wfFrom (j + 1) rest = true := by
  simp [Memory.wfFrom, and_assoc]

theorem Memory.wfFrom_weaken {lo lo' : Nat} {m : Memory} (h : Memory.wfFrom lo m = true) (hl : lo' ≤ lo) :
    Memory.wfFrom lo' m = true := by
  cases m with
  | nil => rfl
  | cons cell rest =>
    rw [Memory.wfFrom_cons] at *
    exact ⟨hl.trans h.1, h.2⟩

/-- Nothing is listed below the lowest address. -/
theorem Memory.get_below {lo k : Nat} {m : Memory} (h : Memory.wfFrom lo m = true) (hk : k < lo) :
    m.get k = Config.resetByte := by
  induction m generalizing lo with
  | nil => rfl
  | cons cell rest ih =>
    rw [Memory.wfFrom_cons] at h
    have hne : k ≠ cell.1 := by omega
    simp only [Memory.get, hne, if_false]
    exact ih h.2.2.2 (by omega)

/-- Nothing is listed from `MEM_SIZE` on. -/
theorem Memory.get_beyond {lo k : Nat} {m : Memory} (h : Memory.wfFrom lo m = true) (hk : Config.memSize ≤ k) :
    m.get k = Config.resetByte := by
  induction m generalizing lo with
  | nil => rfl
  | cons cell rest ih =>
    rw [Memory.wfFrom_cons] at h
    have hne : k ≠ cell.1 := by omega
    simp only [Memory.get, hne, if_false]
    exact ih h.2.2.2

theorem Memory.get_cons {k j : Nat} {v : Byte} {m : Memory} (h : m.get k = Config.resetByte) :
    (Memory.cons k v m).get j = if j = k then v else m.get j := by
  unfold Memory.cons
  split
  · next hv => by_cases hj : j = k <;> simp [hj, h, hv]
  · rfl

theorem Memory.wfFrom_consCell {lo k : Nat} {v : Byte} {m : Memory} (hlo : lo ≤ k) (hk : k < Config.memSize)
    (h : Memory.wfFrom (k + 1) m = true) : Memory.wfFrom lo (Memory.cons k v m) = true := by
  unfold Memory.cons
  split
  · exact Memory.wfFrom_weaken h (by omega)
  · next hv => exact Memory.wfFrom_cons.2 ⟨hlo, hk, hv, h⟩

/-- A read after a write: the value written at its address, the old byte everywhere else. -/
theorem Memory.get_set {lo k j : Nat} {v : Byte} {m : Memory} (h : Memory.wfFrom lo m = true) :
    (m.set k v).get j = if j = k then v else m.get j := by
  induction m generalizing lo with
  | nil => exact Memory.get_cons rfl
  | cons cell rest ih =>
    obtain ⟨hlo, -, -, hrest⟩ := Memory.wfFrom_cons.1 h
    by_cases hlt : k < cell.1
    · have hk : Memory.get (cell :: rest) k = Config.resetByte := Memory.get_below
        (Memory.wfFrom_cons.2 ⟨le_refl _, (Memory.wfFrom_cons.1 h).2⟩) hlt
      simpa [Memory.set, hlt] using Memory.get_cons hk
    · by_cases heq : k = cell.1
      · have hk : Memory.get rest k = Config.resetByte := Memory.get_below hrest (by omega)
        by_cases hj : j = k <;> simp_all [Memory.set, Memory.get, Memory.get_cons]
      · simp only [Memory.set, hlt, heq, if_false, Memory.get, ih hrest]
        by_cases hj : j = cell.1
        · simp [hj, Ne.symm heq]
        · simp [hj]

/-- A write keeps the one form. -/
theorem Memory.wfFrom_set {lo k : Nat} {v : Byte} {m : Memory} (h : Memory.wfFrom lo m = true) (hlo : lo ≤ k)
    (hk : k < Config.memSize) : Memory.wfFrom lo (m.set k v) = true := by
  induction m generalizing lo with
  | nil => exact Memory.wfFrom_consCell hlo hk rfl
  | cons cell rest ih =>
    obtain ⟨hl, hj, hx, hrest⟩ := Memory.wfFrom_cons.1 h
    simp only [Memory.set]
    split
    · next hlt =>
      exact Memory.wfFrom_consCell hlo hk (Memory.wfFrom_cons.2 ⟨by omega, hj, hx, hrest⟩)
    · split
      · next heq => exact Memory.wfFrom_consCell hlo hk (by rw [heq]; exact hrest)
      · next hlt heq => exact Memory.wfFrom_cons.2 ⟨hl, hj, hx, ih hrest (by omega)⟩

theorem Memory.wf_set {k : Nat} {v : Byte} {m : Memory} (h : m.wf = true) (hk : k < Config.memSize) :
    (m.set k v).wf = true := Memory.wfFrom_set h (Nat.zero_le _) hk

theorem Memory.get_set_wf {k j : Nat} {v : Byte} {m : Memory} (h : m.wf = true) :
    (m.set k v).get j = if j = k then v else m.get j := Memory.get_set h

/-- Memories of the one form that read alike are equal lists. -/
theorem Memory.eq_of_get_eq {lo : Nat} {m m' : Memory} (h : Memory.wfFrom lo m = true) (h' : Memory.wfFrom lo m' = true)
    (heq : ∀ k, m.get k = m'.get k) : m = m' := by
  induction m generalizing lo m' with
  | nil =>
    cases m' with
    | nil => rfl
    | cons cell rest =>
      have hread := heq cell.1
      simp only [Memory.get, if_true] at hread
      exact absurd hread.symm (Memory.wfFrom_cons.1 h').2.2.1
  | cons cell rest ih =>
    obtain ⟨hl, -, hx, hrest⟩ := Memory.wfFrom_cons.1 h
    cases m' with
    | nil =>
      have := heq cell.1
      simp [Memory.get, hx] at this
    | cons cell' rest' =>
      obtain ⟨hl', -, hx', hrest'⟩ := Memory.wfFrom_cons.1 h'
      have hkey : cell.1 = cell'.1 := by
        by_contra hne
        rcases Nat.lt_or_gt_of_ne hne with hlt | hlt
        · have := heq cell.1
          simp [Memory.get, hne, Memory.get_below hrest' (show cell.1 < cell'.1 + 1 by omega), hx] at this
        · have hread := heq cell'.1
          simp only [Memory.get, Ne.symm hne, if_false, if_true,
            Memory.get_below hrest (show cell'.1 < cell.1 + 1 by omega)] at hread
          exact hx' hread.symm
      have hval : cell.2 = cell'.2 := by simpa [Memory.get, hkey] using heq cell.1
      have htail : rest = rest' := ih hrest (by rw [hkey]; exact hrest') fun k => by
        by_cases hk : k = cell.1
        · rw [hk, Memory.get_below hrest (Nat.lt_succ_self _), hkey, Memory.get_below hrest' (Nat.lt_succ_self _)]
        · simpa [Memory.get, hk, hkey ▸ hk] using heq k
      rw [show cell = cell' from Prod.ext hkey hval, htail]

end Sys2Proof.Machine
end

