-- ==== Sys2Proof/Laws/Ops.lean ====
section
/-! SUPPORT. One lemma for each shared operation that says everything it can do; the meanings' lemmas cite these. -/

namespace Sys2Proof.Machine

/-! ### The read port (20_memory.md R53) -/

theorem memRead_inRange {k : Nat} {s : State} (h : k < Config.memSize) : memRead k s = (s.mem.get k, s) := by
  simp [memRead, h]

theorem memRead_outOfRange {k : Nat} {s : State} (h : Config.memSize ≤ k) :
    memRead k s = (Config.oorReadValue, s.addReport (.oorRead k)) := by
  simp [memRead, Nat.not_lt.2 h]

/-- A read returns a byte that memory and the address fix, and changes nothing but the log. -/
theorem memRead_eq (k : Nat) (s : State) :
    memRead k s = (readValue s.mem k, { s with log := s.log ++ readReports k }) := by
  unfold memRead readValue readReports State.addReport
  split <;> simp

/-! ### The write ports (20_memory.md R54 to R58) -/

/-- The segment checker's four answers, by range (20_memory.md R52). -/
theorem seg_eq_instr_iff (w : Addr) : seg w = .instr ↔ w.toNat < 256 := by
  unfold seg Config.stackStart Config.dataStart Config.memSize
  by_cases h1 : w.toNat < 256
  · simp [h1]
  by_cases h2 : w.toNat < 512
  · simp [h1, h2]
  by_cases h3 : w.toNat < 2048 <;> simp [h1, h2, h3]

theorem seg_eq_stack_iff (w : Addr) : seg w = .stack ↔ 256 ≤ w.toNat ∧ w.toNat < 512 := by
  unfold seg Config.stackStart Config.dataStart Config.memSize
  by_cases h1 : w.toNat < 256
  · simp [h1, Nat.not_le.2 h1]
  by_cases h2 : w.toNat < 512
  · simp [h1, h2, Nat.not_lt.1 h1]
  by_cases h3 : w.toNat < 2048 <;> simp [h1, h2, h3]

theorem seg_eq_data_iff (w : Addr) : seg w = .data ↔ 512 ≤ w.toNat ∧ w.toNat < 2048 := by
  unfold seg Config.stackStart Config.dataStart Config.memSize
  by_cases h1 : w.toNat < 256
  · simp [h1, show ¬ 512 ≤ w.toNat by omega]
  by_cases h2 : w.toNat < 512
  · simp [h1, h2, Nat.not_le.2 h2]
  by_cases h3 : w.toNat < 2048
  · simp [h1, h2, h3, Nat.not_lt.1 h2]
  · simp [h1, h2, h3]

theorem seg_eq_oor_iff (w : Addr) : seg w = .oor ↔ 2048 ≤ w.toNat := by
  unfold seg Config.stackStart Config.dataStart Config.memSize
  by_cases h1 : w.toNat < 256
  · simp [h1, show ¬ 2048 ≤ w.toNat by omega]
  by_cases h2 : w.toNat < 512
  · simp [h1, h2, show ¬ 2048 ≤ w.toNat by omega]
  by_cases h3 : w.toNat < 2048
  · simp [h1, h2, h3, Nat.not_le.2 h3]
  · simp [h1, h2, h3, Nat.not_lt.1 h3]

/-- An address in the segment a port admits is in range. -/
theorem seg_inRange {p : Port} {w : Addr} (h : seg w = p.segment) : w.toNat < Config.memSize := by
  cases p with
  | instruction => exact Nat.lt_of_lt_of_le ((seg_eq_instr_iff w).1 h) (by decide)
  | stack => exact Nat.lt_of_lt_of_le ((seg_eq_stack_iff w).1 h).2 (by decide)
  | data => exact ((seg_eq_data_iff w).1 h).2

/-- A write changes memory where the port admits the address, and nothing but memory and the log. -/
theorem memWrite_eq (p : Port) (w : Addr) (v : Byte) (s : State) :
    memWrite p w v s = (writeOutcome p w,
      { s with mem := if seg w = p.segment then s.mem.set w.toNat v else s.mem, log := s.log ++ writeReports p w v }) := by
  by_cases hr : Config.memSize ≤ w.toNat
  · have hs : ¬ seg w = p.segment := fun h => absurd (seg_inRange h) (Nat.not_lt.2 hr)
    simp [memWrite, writeOutcome, writeReports, State.addReport, hr, hs]
  · by_cases hs : seg w = p.segment <;>
      simp [memWrite, writeOutcome, writeReports, State.addReport, State.setMem, hr, hs]

/-- The report of a data-port write, by range (60_exceptions.md R202). -/
theorem writeReports_data (w : Addr) (v : Byte) : writeReports .data w v =
    if 2048 ≤ w.toNat then [.oorWrite .data w v] else if w.toNat < 512 then [.segWrite .data w v] else [] := by
  unfold writeReports Config.memSize
  by_cases hr : 2048 ≤ w.toNat
  · rw [if_pos hr, if_pos hr]
  rw [if_neg hr, if_neg hr]
  by_cases hs : w.toNat < 512
  · rw [if_pos hs, if_pos (by rw [Ne, Port.segment, seg_eq_data_iff]; omega)]
  · rw [if_neg hs, if_neg (by rw [Ne, Port.segment, seg_eq_data_iff]; omega)]

/-- The report of a stack-port write, by range (60_exceptions.md R202). -/
theorem writeReports_stack (w : Addr) (v : Byte) : writeReports .stack w v =
    if 2048 ≤ w.toNat then [.oorWrite .stack w v]
    else if w.toNat < 256 ∨ 512 ≤ w.toNat then [.segWrite .stack w v] else [] := by
  unfold writeReports Config.memSize
  by_cases hr : 2048 ≤ w.toNat
  · rw [if_pos hr, if_pos hr]
  rw [if_neg hr, if_neg hr]
  by_cases hs : w.toNat < 256 ∨ 512 ≤ w.toNat
  · rw [if_pos hs, if_pos (by rw [Ne, Port.segment, seg_eq_stack_iff]; omega)]
  · rw [if_neg hs, if_neg (by rw [Ne, Port.segment, seg_eq_stack_iff]; omega)]

/-- What every address reads as after a store that happens only in one segment. -/
theorem get_storeIn {m : Memory} {g : Segment} {lo hi : Nat} {w : Addr} (v : Byte) (h : m.wf = true)
    (hg : seg w = g ↔ lo ≤ w.toNat ∧ w.toNat < hi) (k : Nat) :
    (if seg w = g then m.set w.toNat v else m).get k = if k = w.toNat ∧ lo ≤ k ∧ k < hi then v else m.get k := by
  by_cases hs : seg w = g
  · rw [if_pos hs, Memory.get_set_wf h]
    by_cases hk : k = w.toNat
    · rw [if_pos hk, if_pos ⟨hk, by rw [hk]; exact hg.1 hs⟩]
    · rw [if_neg hk, if_neg fun h' => hk h'.1]
  · rw [if_neg hs, if_neg]
    rintro ⟨rfl, hk⟩
    exact hs (hg.2 hk)

/-! ### The read through the cache (20_memory.md R65) -/

theorem readThrough_hit {w : Addr} {s : State} {v : Byte} (h : s.cache.lookup w = .hit v) (populate : Bool) :
    readThrough w populate s = (v, s) := by
  simp [readThrough, h]

theorem readThrough_miss {w : Addr} {s : State} (h : s.cache.lookup w = .miss) (populate : Bool) :
    readThrough w populate s = (readValue s.mem w.toNat,
      { s with cache := if populate then s.cache.update w (readValue s.mem w.toNat) else s.cache,
               log := s.log ++ readReports w.toNat }) := by
  cases populate <;> simp [readThrough, h, memRead_eq, State.updateCache, State.setCache]

/-- An update that stores what a lookup would hit with changes nothing. -/
theorem Cache.update_of_hit {c : Cache} {w : Addr} {v : Byte} (h : c.lookup w = .hit v) : c.update w v = c := by
  rcases c with ⟨o0, o1, o2⟩
  unfold Cache.update
  rcases Cache.slotFor_cases ⟨o0, o1, o2⟩ w with ⟨hs, h0⟩ | ⟨hs, h0, h1⟩ | ⟨hs, h0, h1, h2⟩ | ⟨-, h0, h1, h2⟩
  · obtain ⟨⟨b, x⟩, rfl, rfl⟩ := slotHolds_eq_true h0
    simp_all [Cache.lookup]
  · obtain ⟨⟨b, x⟩, rfl, rfl⟩ := slotHolds_eq_true h1
    simp only [Cache.lookup, slotFind_of_not_holds h0] at h
    simp_all
  · obtain ⟨⟨b, x⟩, rfl, rfl⟩ := slotHolds_eq_true h2
    simp only [Cache.lookup, slotFind_of_not_holds h0, slotFind_of_not_holds h1] at h
    simp_all
  · simp [Cache.lookup, slotFind_of_not_holds h0, slotFind_of_not_holds h1, slotFind_of_not_holds h2] at h

/-- ADC, SBC, LDA and AND's operand: the value, cached, and the log; nothing else changes. -/
theorem operandCached_eq (w : Addr) (s : State) :
    operandCached w s = (operandValue s w,
      { s with cache := s.cache.update w (operandValue s w), log := s.log ++ operandReports s w }) := by
  unfold operandCached operandValue operandReports
  cases h : s.cache.lookup w with
  | hit v => simp [readThrough_hit h, Cache.update_of_hit h]
  | miss => simp [readThrough_miss h]

/-- EOR's operand: the value and the log; nothing else changes. -/
theorem operandUncached_eq (w : Addr) (s : State) :
    operandUncached w s = (operandValue s w, { s with log := s.log ++ operandReports s w }) := by
  unfold operandUncached operandValue operandReports
  cases h : s.cache.lookup w with
  | hit v => simp [readThrough_hit h]
  | miss => simp [readThrough_miss h]

/-- The write-back of ADC and SBC. -/
theorem writeBack_eq (w : Addr) (v : Byte) (s : State) :
    writeBack w v s = { s with mem := if seg w = .data then s.mem.set w.toNat v else s.mem,
                               log := s.log ++ writeReports .data w v, cache := s.cache.update w v } := by
  simp only [writeBack, memWrite_eq, State.updateCache, State.setCache]
  rfl

/-- The push of a byte. -/
theorem pushByte_eq (v : Byte) (s : State) :
    pushByte v s = { s with mem := if seg s.sp = .stack then s.mem.set s.sp.toNat v else s.mem,
                            log := s.log ++ writeReports .stack s.sp v, sp := s.sp + 1#16 } := by
  simp only [pushByte, memWrite_eq, State.setSp]
  rfl

/-- The pop of a byte. -/
theorem popByte_eq (s : State) :
    popByte s = (readValue s.mem (s.sp - 1#16).toNat,
      { s with sp := s.sp - 1#16, log := s.log ++ readReports (s.sp - 1#16).toNat }) := by
  simp [popByte, memRead_eq, State.setSp]

/-- The fetch: three bytes that memory and PC fix, and the log. -/
theorem fetch_eq (s : State) :
    fetch s = { b0 := readValue s.mem s.pc.toNat, b1 := readValue s.mem (s.pc.toNat + 1),
                b2 := readValue s.mem (s.pc.toNat + 2), after := { s with log := s.log ++ fetchReports s.pc } } := by
  simp [fetch, memRead_eq, fetchReports]

end Sys2Proof.Machine
end

