-- ==== Sys2Proof/Laws/Meanings.lean ====
section
/-! SUPPORT. Each meaning in one equation over the state before it: the operations are cited, not unfolded again. -/

namespace Sys2Proof.Machine

theorem adcOp_eq (p : Config.Params) (addr : Addr) (s : State) :
    adcOp p addr s =
      { s with
        status := writeNOZC s.status (add8 s.a (operandValue s addr) s.flagC)
          (oAdd s.a (operandValue s addr) (add8 s.a (operandValue s addr) s.flagC))
          (cAdc p.carryMode s.a (operandValue s addr) s.flagC)
        cache := s.cache.update addr (add8 s.a (operandValue s addr) s.flagC)
        mem := if seg addr = .data then s.mem.set addr.toNat (add8 s.a (operandValue s addr) s.flagC) else s.mem
        log := s.log ++ operandReports s addr ++ writeReports .data addr (add8 s.a (operandValue s addr) s.flagC) } := by
  simp [adcOp, operandCached_eq, writeBack_eq, State.setStatus, State.flagC]

theorem sbcOp_eq (p : Config.Params) (addr : Addr) (s : State) :
    sbcOp p addr s =
      { s with
        status := writeNOZC s.status (sub8 (operandValue s addr) s.a s.flagC)
          (oSbc p.sbcOMode (operandValue s addr) s.a (sub8 (operandValue s addr) s.a s.flagC))
          (cSbc p.carryMode (operandValue s addr) s.a s.flagC)
        cache := s.cache.update addr (sub8 (operandValue s addr) s.a s.flagC)
        mem := if seg addr = .data then s.mem.set addr.toNat (sub8 (operandValue s addr) s.a s.flagC) else s.mem
        log := s.log ++ operandReports s addr ++ writeReports .data addr (sub8 (operandValue s addr) s.a s.flagC) } := by
  simp [sbcOp, operandCached_eq, writeBack_eq, State.setStatus, State.flagC]

theorem ldaOp_eq (addr : Addr) (s : State) :
    ldaOp addr s = { s with a := operandValue s addr, cache := s.cache.update addr (operandValue s addr),
                            log := s.log ++ operandReports s addr } := by
  simp [ldaOp, operandCached_eq, State.setA]

theorem andOp_eq (addr : Addr) (s : State) :
    andOp addr s = { s with a := and8 s.a (operandValue s addr),
                            status := writeNZ s.status (and8 s.a (operandValue s addr)),
                            cache := s.cache.update addr (operandValue s addr),
                            log := s.log ++ operandReports s addr } := by
  simp [andOp, operandCached_eq, State.setA, State.setStatus]

theorem eorOp_eq (addr : Addr) (s : State) :
    eorOp addr s = { s with a := xor8 s.a (operandValue s addr),
                            status := writeNZ s.status (xor8 s.a (operandValue s addr)),
                            log := s.log ++ operandReports s addr } := by
  simp [eorOp, operandUncached_eq, State.setA, State.setStatus]

theorem jmpOp_eq (addr : Addr) (s : State) : jmpOp addr s = { s with pc := addr } := rfl

theorem pshOp_eq (s : State) :
    pshOp s = { s with mem := if seg s.sp = .stack then s.mem.set s.sp.toNat s.a else s.mem,
                       log := s.log ++ writeReports .stack s.sp s.a, sp := s.sp + 1#16 } := pushByte_eq _ _

theorem popOp_eq (s : State) :
    popOp s = { s with a := readValue s.mem (s.sp - 1#16).toNat, sp := s.sp - 1#16,
                       log := s.log ++ readReports (s.sp - 1#16).toNat } := by
  simp [popOp, popByte_eq, State.setA]

theorem undefinedOp_eq (opcode : Byte) (s : State) :
    undefinedOp opcode s = { s with log := s.log ++ [.undefOpcode s.pc opcode] } := rfl

/-- `exec` always gives a next state, and it is `executeWith` at the machine's parameters (40_fetch_execute.md R115,
60_exceptions.md R200). -/
theorem exec_eq (i : Instr) (s : State) : exec i s = .next (executeWith chip i s) := by
  cases i <;> rfl

/-- What no instruction ever changes: the phase. -/
@[simp] theorem executeWith_phase (p : Config.Params) (i : Instr) (s : State) : (executeWith p i s).phase = s.phase := by
  cases i <;> simp [executeWith, adcOp_eq, sbcOp_eq, ldaOp_eq, andOp_eq, eorOp_eq, jmpOp_eq, pshOp_eq, popOp_eq,
    undefinedOp_eq]

/-- Only JMP writes PC. -/
theorem executeWith_pc (p : Config.Params) (i : Instr) (s : State) :
    (executeWith p i s).pc = (match i with | .jmp addr => addr | _ => s.pc) := by
  cases i <;> simp [executeWith, adcOp_eq, sbcOp_eq, ldaOp_eq, andOp_eq, eorOp_eq, jmpOp_eq, pshOp_eq, popOp_eq,
    undefinedOp_eq]

/-- No instruction writes a reserved bit of STATUS (10_state.md R29). -/
@[simp] theorem executeWith_reserved (p : Config.Params) (i : Instr) (s : State) :
    (executeWith p i s).status &&& Config.reservedMask = s.status &&& Config.reservedMask := by
  cases i <;> simp [executeWith, adcOp_eq, sbcOp_eq, ldaOp_eq, andOp_eq, eorOp_eq, jmpOp_eq, pshOp_eq, popOp_eq,
    undefinedOp_eq]

/-- A store that happens only in one segment keeps memory in its one form. -/
theorem storeIn_wf {m : Memory} (h : m.wf = true) {g : Segment} (hg : g ≠ .oor) (w : Addr) (v : Byte) :
    (if seg w = g then m.set w.toNat v else m).wf = true := by
  split
  · next hs =>
    cases g with
    | instr => exact Memory.wf_set h (seg_inRange (p := .instruction) hs)
    | stack => exact Memory.wf_set h (seg_inRange (p := .stack) hs)
    | data => exact Memory.wf_set h (seg_inRange (p := .data) hs)
    | oor => exact absurd rfl hg
  · exact h

/-- Every instruction keeps memory in its one form. -/
theorem executeWith_mem_wf (p : Config.Params) (i : Instr) {s : State} (h : s.mem.wf = true) :
    (executeWith p i s).mem.wf = true := by
  cases i with
  | adc addr => simpa only [executeWith, adcOp_eq] using storeIn_wf h (by decide) _ _
  | sbc addr => simpa only [executeWith, sbcOp_eq] using storeIn_wf h (by decide) _ _
  | psh _ => simpa only [executeWith, pshOp_eq] using storeIn_wf h (by decide) _ _
  | _ => simpa [executeWith, ldaOp_eq, andOp_eq, eorOp_eq, jmpOp_eq, popOp_eq, undefinedOp_eq] using h

/-- Every instruction keeps the live cache addresses distinct (10_state.md R39). -/
theorem executeWith_distinct (p : Config.Params) (i : Instr) {s : State} (h : s.cache.distinct = true) :
    (executeWith p i s).cache.distinct = true := by
  cases i <;> simp [executeWith, adcOp_eq, sbcOp_eq, ldaOp_eq, andOp_eq, eorOp_eq, jmpOp_eq, pshOp_eq, popOp_eq,
    undefinedOp_eq, Cache.distinct_update, h]

/-- What every write port keeps: memory's one form. -/
theorem memWrite_wf (q : Port) (w : Addr) (v : Byte) {s : State} (h : s.mem.wf = true) :
    (memWrite q w v s).2.mem.wf = true := by
  rw [memWrite_eq]
  by_cases hs : seg w = q.segment
  · simpa [hs] using Memory.wf_set h (seg_inRange hs)
  · simpa [hs] using h

end Sys2Proof.Machine
end

