-- ==== Sys2Proof/Laws/Step.lean ====
section
/-! SUPPORT. Everything a step can do, said once. -/

namespace Sys2Proof.Machine

/-- The instruction the machine with the setting `m` reads at PC, or the refusal. -/
def fetchedInstr (m : Config.OpcodeDecode) (s : State) : Except DecodeRefusal Instr :=
  decodeBytes m (readValue s.mem s.pc.toNat) (readValue s.mem (s.pc.toNat + 1)) (readValue s.mem (s.pc.toNat + 2))

/-- The state an instruction starts from: the fetch's reports are made. -/
def State.fetched (s : State) : State := { s with log := s.log ++ fetchReports s.pc }

/-- `step` is `stepWith` at the machine's parameters. -/
theorem step_eq_stepWith (s : State) : step s = stepWith chip s := by
  have h : (exec : Instr → State → Host.Outcome State Fault Refusal) = fun i t => .next (executeWith chip i t) := by
    funext i t
    exact exec_eq i t
  rw [step, stepWith, h]

/-- The step, case by case (40_fetch_execute.md R112, R113). -/
theorem stepWith_eq (p : Config.Params) (s : State) :
    stepWith p s = match s.phase with
      | .idle => .next s
      | .running bound =>
        if s.pc < bound then
          match fetchedInstr p.opcodeDecode s with
          | .ok i => .next (executeWith p i s.fetched).advance
          | .error _ => .refused (.refusedOpcode (readValue s.mem s.pc.toNat))
        else .next { s with phase := .idle } := by
  simp only [stepWith, loopStep]
  cases s.phase with
  | idle => rfl
  | running bound =>
    simp only
    split
    · simp only [runOne, fetch_eq, fetchedInstr, State.fetched]
      cases decodeBytes p.opcodeDecode (readValue s.mem s.pc.toNat) (readValue s.mem (s.pc.toNat + 1))
        (readValue s.mem (s.pc.toNat + 2)) <;> rfl
    · rfl

/-- The three things a step that gives a next state can be. -/
theorem stepWith_cases {p : Config.Params} {s t : State} (h : stepWith p s = .next t) :
    (s.phase = .idle ∧ t = s) ∨
    (∃ bound, s.phase = .running bound ∧ ¬ s.pc < bound ∧ t = { s with phase := .idle }) ∨
    (∃ bound i, s.phase = .running bound ∧ s.pc < bound ∧ fetchedInstr p.opcodeDecode s = .ok i ∧
      t = (executeWith p i s.fetched).advance) := by
  rw [stepWith_eq] at h
  cases hp : s.phase with
  | idle => rw [hp] at h; exact .inl ⟨rfl, by simpa using h.symm⟩
  | running bound =>
    rw [hp] at h
    simp only at h
    split at h
    · next hlt =>
      cases hi : fetchedInstr p.opcodeDecode s with
      | error r => rw [hi] at h; simp at h
      | ok i => rw [hi] at h; exact .inr (.inr ⟨bound, i, rfl, hlt, rfl, by simpa using h.symm⟩)
    · next hge => exact .inr (.inl ⟨bound, rfl, hge, by simpa using h.symm⟩)

/-- A step below the bound, by the decoded instruction. -/
theorem step_of_decoded {s : State} {bound : Addr} {i : Instr} (hp : s.phase = .running bound) (hlt : s.pc < bound)
    (hi : fetchedInstr chip.opcodeDecode s = .ok i) : step s = .next (executeWith chip i s.fetched).advance := by
  rw [step_eq_stepWith, stepWith_eq, hp]
  simp only [hlt, if_true, hi]

/-- A run of one step more, of any machine, from where the first step leads. -/
theorem coreRun_succ (M : Host.Core) {s u : M.State} (h : M.step s = .next u) (k : Nat) :
    M.run (k + 1) s = M.run k u := by
  simp only [Host.Core.run, h]

/-- A run of one step more of this machine. -/
theorem run_succ {s u : State} (h : step s = .next u) (k : Nat) :
    Sys2Proof.core.run (k + 1) s = Sys2Proof.core.run k u := coreRun_succ Sys2Proof.core h k

/-- A fetch inside memory reports nothing. -/
theorem fetchReports_inRange {pc : Addr} (h : pc.toNat + 2 < 2048) : fetchReports pc = [] := by
  have h0 : pc.toNat < Config.memSize := Nat.lt_of_le_of_lt (Nat.le_add_right _ 2) h
  have h1 : pc.toNat + 1 < Config.memSize := Nat.lt_of_le_of_lt (by omega) h
  have h2 : pc.toNat + 2 < Config.memSize := h
  simp only [fetchReports, readReports, h0, h1, h2, if_true, List.append_nil]

/-- Only `refuse_high` refuses an opcode byte. -/
theorem decodeBytes_ok {m : Config.OpcodeDecode} (hm : m ≠ .refuseHigh) (b0 b1 b2 : Byte) :
    ∃ i, decodeBytes m b0 b1 b2 = .ok i := by
  cases m with
  | refuseHigh => exact absurd rfl hm
  | fullByte => cases h : opOf b0.toNat <;> simp [decodeBytes, opcodeField, h]
  | lowNibble =>
    cases h : opOf (b0.extractLsb' 0 4).toNat <;> simp only [decodeBytes, opcodeField, h, Except.ok.injEq, exists_eq']

end Sys2Proof.Machine
end

