-- ==== Sys2Proof/Laws/Host.lean ====
section
/-! SUPPORT. What the host's commands can do, said once, and the small lemmas of the invariant. -/

namespace Sys2Proof.Machine

/-- The invariant, part by part. -/
theorem State.inv_iff (s : State) : s.inv = true ↔
    s.mem.wf = true ∧ s.cache.distinct = true ∧ s.status &&& Config.reservedMask = 0#8 := by
  simp [State.inv, and_assoc]

/-- In Idle a command is the action itself (40_fetch_execute.md R110). -/
theorem hostCommand_of_idle {s : State} (h : s.phase = .idle) (c : HostCommand) : hostCommand c s = hostAction exec c s := by
  simp [hostCommand, hostCommandBy, State.isRunning, h]

/-- Everything an answered command can leave (40_fetch_execute.md R110). -/
theorem hostCommandWith_cases {p : Config.Params} {c : HostCommand} {s t : State} {r : HostReply}
    (h : hostCommandWith p c s = .next (t, r)) :
    (c = .reset ∧ t = State.reset) ∨
    (∃ start bound, c = .run start bound ∧ t = { s with pc := start, phase := .running bound }) ∨
    (∃ op w, c = .exec op w ∧ t = executeWith p (op.toInstr w) s) ∨
    (∃ w, c = .readByte w ∧ t = { s with log := s.log ++ readReports w.toNat }) ∨
    (∃ q w v, (c = .writeInstructionByte w v ∧ q = .instruction ∨ c = .writeStackByte w v ∧ q = .stack ∨
      c = .writeByte w v ∧ q = .data) ∧ t = (memWrite q w v s).2) ∨
    (c = .observe ∧ t = s) := by
  simp only [hostCommandWith, hostCommandBy] at h
  split at h
  · simp at h
  · cases c <;> simp only [hostAction, Host.Outcome.next.injEq, Prod.mk.injEq, memRead_eq] at h <;>
      obtain ⟨rfl, -⟩ := h
    case run => exact .inr (.inl ⟨_, _, rfl, rfl⟩)
    all_goals simp

/-- A move of the host in the joined system is an answered command. -/
theorem sysStep_host {p : Config.Params} {c : HostCommand} {s t : State} (h : sysStep p (.host c) s = .next t) :
    ∃ r, hostCommandWith p c s = .next (t, r) := by
  simp only [sysStep] at h
  split at h
  · next r hr =>
    simp only [Host.Outcome.next.injEq] at h
    exact ⟨r.2, by rw [hr, ← h]⟩
  · simp at h
  · simp at h

/-- The loader's port for an address in range is the one that admits it. -/
theorem loadPort_segment {w : Addr} (h : w.toNat < 2048) : seg w = (loadPort w).segment := by
  unfold loadPort
  cases hs : seg w <;> simp only [Port.segment]
  rw [seg_eq_oor_iff] at hs
  omega

/-- The loader's write of one byte in range stores it and does nothing else. -/
theorem memWrite_loadPort {s : State} {w : Addr} {v : Byte} (h : w.toNat < 2048) :
    (memWrite (loadPort w) w v s).2 = { s with mem := s.mem.set w.toNat v } := by
  have hs := loadPort_segment h
  have hr : writeReports (loadPort w) w v = [] := by simp [writeReports, ← hs, Config.memSize, h]
  simp [memWrite_eq, ← hs, hr]

end Sys2Proof.Machine
end

