-- ==== Sys2Proof/Laws/PerInstr.lean ====
section
/-! SUPPORT. Statements about every instruction as syntax, one lemma a constructor (LAWS.json). -/

namespace Sys2Proof.Laws.ThreeBytes

/-- An instruction is exactly three bytes, the second and third of them its operand field (30_encoding.md R90, R91). -/
def Statement (i : Instr) : Prop :=
  ∃ b1 b2 : Byte, encode i = [opcodeByte i, b1, b2] ∧ operandOf b1 b2 = operandField i

theorem of_encode (i : Instr) : Statement i := ⟨_, _, rfl, operandOf_bytes _⟩

theorem adc (w : Addr) : Statement (.adc w) := of_encode _
theorem sbc (w : Addr) : Statement (.sbc w) := of_encode _
theorem lda (w : Addr) : Statement (.lda w) := of_encode _
theorem and (w : Addr) : Statement (.and w) := of_encode _
theorem eor (w : Addr) : Statement (.eor w) := of_encode _
theorem jmp (w : Addr) : Statement (.jmp w) := of_encode _
theorem psh (w : Addr) : Statement (.psh w) := of_encode _
theorem pop (w : Addr) : Statement (.pop w) := of_encode _
theorem undefined (b : Byte) (w : Addr) : Statement (.undefined b w) := of_encode _

end Sys2Proof.Laws.ThreeBytes
end

