-- ==== Sys2Proof/Tests/Slice0.lean ====
section
/-! SUPPORT. Tests with expected results from the spec (95_test_vectors.md and the rules named), and for every statement
with hypotheses a witness that meets them. -/

namespace Sys2Proof.Tests
open Sys2Proof.Machine

/-- The next state of an outcome. -/
def nextState (o : Host.Outcome State Fault Refusal) : Option State :=
  match o with
  | .next s => some s
  | .fault r => nomatch r
  | .refused _ => none

/-- The refusal of an outcome. -/
def refusalOf (o : Host.Outcome State Fault Refusal) : Option Refusal :=
  match o with
  | .next _ => none
  | .fault r => nomatch r
  | .refused r => some r

/-- A small state: A, STATUS, the first cache slot and memory given, the rest as after reset. -/
def st (a status : Byte) (slot : Option CacheEntry) (mem : Memory) : State :=
  { State.reset with a := a, status := status, cache := { Cache.empty with slot0 := slot }, mem := mem }

/-- A run in progress at PC with a bound. -/
def running (s : State) (pc bound : Addr) : State := { s with pc := pc, phase := .running bound }

/-- What the tests look at: A, STATUS, the live cache entries, memory and the report log. -/
structure Look where
  a : Byte
  status : Byte
  live : List CacheEntry
  mem : Memory
  log : List Report
  deriving DecidableEq, Repr

/-- What an outcome's next state shows. -/
def look (o : Host.Outcome State Fault Refusal) : Option Look :=
  (nextState o).map fun s => ⟨s.a, s.status, s.cache.live, s.mem, s.log⟩

/-! ### Well-formedness: the one check, and an ill-formed term it refuses -/

theorem test_wf_refuses_defined_opcode : (Instr.undefined 0x07#8 0#16).wellFormed .fullByte = false := by decide
theorem test_wf_refuses_high_nibble_only : (Instr.undefined 0x10#8 0#16).wellFormed .lowNibble = false := by decide
theorem test_wf_refuses_refused_byte : (Instr.undefined 0x18#8 0#16).wellFormed .refuseHigh = false := by decide
theorem test_wf_accepts_undefined : (Instr.undefined 0x08#8 0#16).wellFormed .fullByte = true := by decide

/-! ### Decoding: every constructor by a word written out bit by bit (30_encoding.md R91, R94; 95_test_vectors.md V-U) -/

theorem test_decode_adc : decode .fullByte [0b00000000#8, 0b00000010#8, 0b00000001#8] = .ok (.adc 0x0201#16, []) := rfl
theorem test_decode_sbc : decode .fullByte [0b00000001#8, 0b00000010#8, 0b00000001#8] = .ok (.sbc 0x0201#16, []) := rfl
theorem test_decode_lda : decode .fullByte [0b00000010#8, 0b00000010#8, 0b00000001#8] = .ok (.lda 0x0201#16, []) := rfl
theorem test_decode_and : decode .fullByte [0b00000011#8, 0b00000010#8, 0b00000001#8] = .ok (.and 0x0201#16, []) := rfl
theorem test_decode_eor : decode .fullByte [0b00000100#8, 0b00000010#8, 0b00000001#8] = .ok (.eor 0x0201#16, []) := rfl
theorem test_decode_jmp : decode .fullByte [0b00000101#8, 0b00000000#8, 0b00001111#8] = .ok (.jmp 0x000F#16, []) := rfl
theorem test_decode_psh : decode .fullByte [0b00000110#8, 0b10100000#8, 0b00000101#8] = .ok (.psh 0xA005#16, []) := rfl
theorem test_decode_pop : decode .fullByte [0b00000111#8, 0b00000000#8, 0b00000000#8, 0x05#8] = .ok (.pop 0#16, [0x05#8]) := rfl
theorem test_decode_undefined : decode .fullByte [0b00001010#8, 0x12#8, 0x34#8] = .ok (.undefined 0x0A#8 0x1234#16, []) := rfl
theorem test_decode_sentinel : decode .fullByte [0xFF#8, 0xFF#8, 0xFF#8] = .ok (.undefined 0xFF#8 0xFFFF#16, []) := rfl
theorem test_decode_u2_full_byte : decode .fullByte [0x12#8, 0x02#8, 0x00#8] = .ok (.undefined 0x12#8 0x0200#16, []) := rfl
theorem test_decode_u3_low_nibble : decode .lowNibble [0x12#8, 0x02#8, 0x00#8] = .ok (.lda 0x0200#16, []) := rfl
theorem test_decode_u4_refuse_high : decode .refuseHigh [0x12#8, 0x02#8, 0x00#8] = .error (.refusedOpcode 0x12#8) := rfl
theorem test_decode_too_short : decode .fullByte [0x02#8, 0x02#8] = .error .tooShort := rfl
theorem test_table_word : decodeTableWord 24 0x010203 = some (.sbc 0x0203#16) := by decide

/-! ### Instructions (95_test_vectors.md Part 1 and 2) -/

-- V-A2: 0x7F + 0x01, N and O
theorem test_adc_overflow : look (exec (.adc 0x0300#16) (st 0x7F#8 0x00#8 none [(0x300, 0x01#8)])) =
    some ⟨0x7F#8, 0x03#8, [⟨0x0300#16, 0x80#8⟩], [(0x300, 0x80#8)], []⟩ := by decide
-- V-A12: ADC on the instruction segment
theorem test_adc_rejected_write : look (exec (.adc 0x0010#16) (st 0x01#8 0x00#8 none [(0x10, 0x05#8)])) =
    some ⟨0x01#8, 0x00#8, [⟨0x0010#16, 0x06#8⟩], [(0x10, 0x05#8)], [.segWrite .data 0x0010#16 0x06#8]⟩ := by decide
-- V-S2: 0x00 - 0x01, N and O by ADC's expression
theorem test_sbc_wraps : look (exec (.sbc 0x0300#16) (st 0x01#8 0x00#8 none [])) =
    some ⟨0x01#8, 0x03#8, [⟨0x0300#16, 0xFF#8⟩], [(0x300, 0xFF#8)], []⟩ := by decide
-- V-S10: 0xFF - 0xFF, Z and O
theorem test_sbc_zero : look (exec (.sbc 0x0300#16) (st 0xFF#8 0x00#8 none [(0x300, 0xFF#8)])) =
    some ⟨0xFF#8, 0x22#8, [⟨0x0300#16, 0x00#8⟩], [], []⟩ := by decide
-- V-L3: a cached 0 is a hit
theorem test_lda_cached_zero : look (exec (.lda 0x0300#16) (st 0x55#8 0x01#8 (some ⟨0x0300#16, 0x00#8⟩) [(0x300, 0x77#8)])) =
    some ⟨0x00#8, 0x01#8, [⟨0x0300#16, 0x00#8⟩], [(0x300, 0x77#8)], []⟩ := by decide
-- V-L4: an out-of-range load caches the sentinel
theorem test_lda_out_of_range : look (exec (.lda 0x0900#16) (st 0x00#8 0x00#8 none [])) =
    some ⟨0xFF#8, 0x00#8, [⟨0x0900#16, 0xFF#8⟩], [], [.oorRead 0x900]⟩ := by decide
-- V-N2: Z set, O kept
theorem test_and_zero : look (exec (.and 0x0300#16) (st 0xF0#8 0x02#8 none [(0x300, 0x0F#8)])) =
    some ⟨0x00#8, 0x22#8, [⟨0x0300#16, 0x0F#8⟩], [(0x300, 0x0F#8)], []⟩ := by decide
-- V-N3: N set, Z cleared
theorem test_and_negative : look (exec (.and 0x0300#16) (st 0xFF#8 0x20#8 none [(0x300, 0x80#8)])) =
    some ⟨0x80#8, 0x01#8, [⟨0x0300#16, 0x80#8⟩], [(0x300, 0x80#8)], []⟩ := by decide
-- V-E1: the cached value is used
theorem test_eor_cached : look (exec (.eor 0x0200#16) (st 0x03#8 0x00#8 (some ⟨0x0200#16, 0x08#8⟩) [])) =
    some ⟨0x0B#8, 0x00#8, [⟨0x0200#16, 0x08#8⟩], [], []⟩ := by decide
-- V-E4: out of range, reported, not cached
theorem test_eor_out_of_range : look (exec (.eor 0x0900#16) (st 0x00#8 0x00#8 none [])) =
    some ⟨0xFF#8, 0x01#8, [], [], [.oorRead 0x900]⟩ := by decide
-- V-J2: the stride applies after JMP
theorem test_jmp_stride : (nextState (step (running (st 0#8 0#8 none [(0, 0x05#8), (2, 0x0F#8)]) 0#16 0x30#16))).map State.pc =
    some 0x0012#16 := by decide
-- V-J3: the advance wraps
theorem test_jmp_wraps : (nextState (step (running (st 0#8 0#8 none [(0, 0x05#8), (1, 0xFF#8), (2, 0xFE#8)]) 0#16 0x30#16))).map State.pc =
    some 0x0001#16 := by decide
-- V-P2: the last stack byte
theorem test_psh_last : (nextState (exec (.psh 0#16) { st 0x22#8 0#8 none [] with sp := 0x01FF#16 })).map
    (fun s => (s.sp, s.mem, s.log)) = some (0x0200#16, [(0x1FF, 0x22#8)], []) := by decide
-- V-P4: out of range, SP wraps
theorem test_psh_wraps : (nextState (exec (.psh 0#16) { st 0x22#8 0#8 none [] with sp := 0xFFFF#16 })).map
    (fun s => (s.sp, s.mem, s.log)) = some (0x0000#16, [], [.oorWrite .stack 0xFFFF#16 0x22#8]) := by decide
-- V-P7: below the stack segment
theorem test_pop_underflow : (nextState (exec (.pop 0#16) (st 0#8 0#8 none [(0xFF, 0x5A#8)]))).map
    (fun s => (s.sp, s.a, s.log)) = some (0x00FF#16, 0x5A#8, []) := by decide
-- V-P9: memory, not the cache
theorem test_pop_ignores_cache : (nextState (exec (.pop 0#16)
    { st 0#8 0#8 (some ⟨0x0100#16, 0x00#8⟩) [(0x100, 0x42#8)] with sp := 0x0101#16 })).map State.a = some 0x42#8 := by decide
-- V-U1: one report, PC + 3
theorem test_undefined : nextState (step (running (st 0#8 0#8 none [(6, 0x0A#8), (7, 0x12#8), (8, 0x34#8)]) 6#16 9#16)) =
    some { running (st 0#8 0#8 none [(6, 0x0A#8), (7, 0x12#8), (8, 0x34#8)]) 9#16 9#16 with log := [.undefOpcode 6#16 0x0A#8] } := by
  decide

/-! ### Parameters (95_test_vectors.md V-A4, V-A10, V-S3, V-S6, V-U4) -/

theorem test_adc_wide_carry : (executeWith ⟨.wide, .fullByte, .adcStructure⟩ (.adc 0x0300#16)
    (st 0xFF#8 0x00#8 none [(0x300, 0x01#8)])).status = 0x60#8 := by decide
theorem test_adc_wide_carry_in : (executeWith ⟨.wide, .fullByte, .adcStructure⟩ (.adc 0x0300#16)
    (st 0xFF#8 0x40#8 none [])).status = 0x60#8 := by decide
theorem test_sbc_wide_borrow : (executeWith ⟨.wide, .fullByte, .adcStructure⟩ (.sbc 0x0300#16)
    (st 0x01#8 0x00#8 none [])).status = 0x43#8 := by decide
theorem test_sbc_true_signed : (executeWith ⟨.truncated, .fullByte, .trueSigned⟩ (.sbc 0x0300#16)
    (st 0x01#8 0x00#8 none [(0x300, 0x80#8)])).status = 0x02#8 := by decide
theorem test_refuse_high_step : refusalOf (stepWith ⟨.truncated, .refuseHigh, .adcStructure⟩
    (running (st 0#8 0#8 none [(0, 0x12#8)]) 0#16 3#16)) = some (.refusedOpcode 0x12#8) := by decide

/-! ### Ports, cache, reports, host -/

-- V-M8: the range is checked before the segment
theorem test_port_range_first : memWrite .stack 0x0900#16 0x09#8 State.reset =
    (.rejectRange, { State.reset with log := [.oorWrite .stack 0x0900#16 0x09#8] }) := by decide
-- V-M2
theorem test_port_segment : memWrite .data 0x01FF#16 0x07#8 State.reset =
    (.rejectSegment, { State.reset with log := [.segWrite .data 0x01FF#16 0x07#8] }) := by decide
-- V-C4, V-C6: the smallest address is evicted, then the newly inserted one
theorem test_cache_evicts_smallest :
    ((Cache.mk (some ⟨0x300#16, 1#8⟩) (some ⟨0x200#16, 2#8⟩) (some ⟨0x400#16, 3#8⟩)).update 0x250#16 4#8).live =
      [⟨0x300#16, 1#8⟩, ⟨0x250#16, 4#8⟩, ⟨0x400#16, 3#8⟩] := by decide
theorem test_cache_small_address_next :
    ((Cache.mk (some ⟨0x300#16, 1#8⟩) (some ⟨0x100#16, 5#8⟩) (some ⟨0x400#16, 3#8⟩)).update 0x050#16 6#8).live =
      [⟨0x300#16, 1#8⟩, ⟨0x050#16, 6#8⟩, ⟨0x400#16, 3#8⟩] := by decide
-- 60_exceptions.md R203's example: fetch, then operand, then write-back
theorem test_report_order : (nextState (step (running (st 0x01#8 0#8 none [(0x7FF, 0x08#8)]) 0x07FE#16 0x0900#16))).map State.log =
    some [.oorRead 0x800, .oorRead 0x8FF, .oorWrite .data 0x08FF#16 0x00#8] := by decide
-- 60_exceptions.md R201
theorem test_report_codes : (Report.oorRead 0).code = 1 ∧ (Report.oorWrite .data 0#16 0#8).code = 2 ∧
    (Report.segWrite .data 0#16 0#8).code = 3 ∧ (Report.undefOpcode 0#16 0#8).code = 4 := by decide
-- V-J1: EXEC leaves PC at the target
theorem test_exec_jmp : hostCommand (.exec .jmp 0x000F#16) { State.reset with pc := 0x0123#16 } =
    .next ({ State.reset with pc := 0x000F#16 }, .done) := rfl
-- 40_fetch_execute.md R110, R33: live pairs are observed without their slots
theorem test_observe_live : (Cache.mk (some ⟨0x300#16, 1#8⟩) none (some ⟨0x200#16, 2#8⟩)).livePairs =
    [⟨0x200#16, 2#8⟩, ⟨0x300#16, 1#8⟩] := by decide
-- the first step after reset with a word placed (log entry 5): LDA 0x0002 loads its own third byte
theorem test_placed_word : (nextState (step (State.reset.withFetchWord 24 0x020002))).map (fun s => (s.pc, s.a)) =
    some (3#16, 0x02#8) := by decide

/-! ### Witnesses: concrete values that meet the hypotheses of each statement that has some -/

/-- Running at 0 below a bound, in range: the loop's hypotheses. -/
def run0 : State := running (st 0x01#8 0x00#8 none [(0, 0x05#8), (2, 0x0F#8)]) 0#16 0x30#16

theorem witness_DecodeOfEncodeIsIdentity : (Instr.undefined 0xFF#8 0xFFFF#16).wellFormed .fullByte = true ∧
    (Instr.undefined 0x18#8 0#16).wellFormed .lowNibble = true ∧ (Instr.undefined 0x0F#8 0#16).wellFormed .refuseHigh = true ∧
    (Instr.adc 0xFFFF#16).wellFormed .fullByte = true := by decide
theorem witness_OpcodeMapAndBigEndianOperand : 8 ≤ (0x08#8).toNat ∧ (0x0F#8).toNat ≤ 15 ∧ 16 ≤ (0x10#8).toNat := by decide
theorem witness_OpcodeByteUnderEachSetting : (0x07#8).toNat ≤ 7 ∧ 7 < (0x08#8).toNat ∧ (0x17#8).toNat % 16 ≤ 7 ∧
    7 < (0x18#8).toNat % 16 ∧ 15 < (0x10#8).toNat ∧ (0x0F#8).toNat ≤ 15 := by decide
theorem witness_RunSetsPcAndPhaseOnly : State.reset.phase = .idle := by decide
theorem witness_ExecPortPerformsOneOperation : State.reset.phase = .idle ∧ (Op.jmp = .jmp) ∧ Op.adc ≠ .jmp ∧ Op.psh = .psh := by
  decide
theorem witness_HostCommandsAreAcceptedWhenIdle : State.reset.phase = .idle ∧ run0.phase = .running 0x30#16 ∧
    HostCommand.observe ≠ .reset ∧ (∀ a b, HostCommand.readByte 0#16 ≠ .run a b) ∧
    (∀ o a, HostCommand.readByte 0#16 ≠ .exec o a) := by
  exact ⟨rfl, rfl, by decide, fun _ _ => by simp, fun _ _ => by simp⟩
theorem witness_PortWriteIsReadBack : State.reset.phase = .idle ∧ State.reset.mem.wf = true ∧
    512 ≤ (0x07FF#16).toNat ∧ (0x07FF#16).toNat < 2048 ∧ ¬ (512 ≤ (0x01FF#16).toNat ∧ (0x01FF#16).toNat < 2048) := by decide
theorem witness_SegmentOfAnAddress : (0x00FF#16).toNat < 256 ∧ 256 ≤ (0x0100#16).toNat ∧ (0x01FF#16).toNat < 512 ∧
    512 ≤ (0x0200#16).toNat ∧ (0x07FF#16).toNat < 2048 ∧ 2048 ≤ (0x0800#16).toNat := by decide
theorem witness_WritePortsAdmitOneSegment : State.reset.mem.wf = true ∧ 2048 ≤ (0x0800#16).toNat ∧
    ((0x01FF#16).toNat < 2048 ∧ ¬ (512 ≤ (0x01FF#16).toNat)) ∧ (512 ≤ (0x0200#16).toNat ∧ (0x07FF#16).toNat < 2048) := by decide
theorem witness_LookupFindsExactlyTheLiveEntries :
    (Cache.mk (some ⟨0x300#16, 0#8⟩) none (some ⟨0x200#16, 2#8⟩)).distinct = true := by decide
theorem witness_UpdateEvictsTheSmallestAddress :
    (Cache.mk (some ⟨0x300#16, 1#8⟩) (some ⟨0x200#16, 2#8⟩) (some ⟨0x400#16, 3#8⟩)).distinct = true ∧
    (Cache.mk (some ⟨0x300#16, 1#8⟩) (some ⟨0x200#16, 2#8⟩) (some ⟨0x400#16, 3#8⟩)).lookup 0x250#16 = .miss ∧
    (Cache.mk (some ⟨0x300#16, 1#8⟩) (some ⟨0x200#16, 2#8⟩) (some ⟨0x400#16, 3#8⟩)).live.length = 3 ∧
    Cache.empty.lookup 0#16 = .miss ∧ Cache.empty.live.length < 3 ∧ Cache.empty.distinct = true := by decide
theorem witness_ReadThroughConsultsTheCacheFirst :
    (st 0#8 0#8 (some ⟨0x300#16, 0#8⟩) []).cache.lookup 0x300#16 = .hit 0#8 ∧ State.reset.cache.lookup 0x0800#16 = .miss := by
  decide
theorem witness_CacheSlotOrderIsUnobservable :
    SameButSlots { State.reset with cache := ⟨some ⟨1#16, 1#8⟩, none, none⟩ } { State.reset with cache := ⟨none, some ⟨1#16, 1#8⟩, none⟩ } ∧
    (Cache.mk (some ⟨1#16, 1#8⟩) none none).distinct = true := ⟨⟨List.Perm.refl _, rfl⟩, by decide⟩
theorem witness_AdcAddsIntoMemoryAndCache : (st 0x7F#8 0x40#8 none [(0x300, 0x01#8)]).mem.wf = true ∧
    operandValue (st 0x7F#8 0x40#8 none [(0x300, 0x01#8)]) 0x0300#16 = 0x01#8 := by decide
theorem witness_SbcSubtractsIntoMemoryAndCache : (st 0x01#8 0x00#8 none []).mem.wf = true ∧
    operandValue (st 0x01#8 0x00#8 none []) 0x0800#16 = 0xFF#8 := by decide
theorem witness_JmpSetsPcThenTheLoopAdvances : run0.phase = .running 0x30#16 ∧ run0.pc < 0x30#16 ∧
    decodeBytes chip.opcodeDecode (readValue run0.mem run0.pc.toNat) (readValue run0.mem (run0.pc.toNat + 1))
      (readValue run0.mem (run0.pc.toNat + 2)) = .ok (.jmp 0x000F#16) := ⟨rfl, by decide, rfl⟩
theorem witness_PshWritesAtSpAndMovesItUp : State.reset.mem.wf = true := by decide
theorem witness_UndefinedOpcodeReportsAndDoesNothing :
    (running (st 0#8 0#8 none [(0, 0x08#8)]) 0#16 1#16).phase = .running 1#16 ∧ (0#16 : Addr) < 1#16 ∧
    (0#16 : Addr).toNat + 2 < 2048 ∧ Memory.get [(0, 0x08#8)] 0 = 0x08#8 ∧ 8 ≤ (0x08#8).toNat := by decide
theorem witness_CarryUnderEachMode : Config.Params.spec.carryMode = .truncated ∧
    (Config.Params.mk .wide .fullByte .adcStructure).carryMode = .wide := by decide
theorem witness_SbcOverflowUnderEachMode : Config.Params.spec.sbcOMode = .adcStructure ∧
    (Config.Params.mk .wide .fullByte .trueSigned).sbcOMode = .trueSigned := by decide
theorem witness_PushThenPopRoundTrip : State.reset.mem.wf = true ∧ 256 ≤ State.reset.sp.toNat ∧ State.reset.sp.toNat < 512 ∧
    (0x01FF#16).toNat < 512 := by decide
theorem witness_OnlyTheNamedStateChanges : (st 0#8 0#8 none [(0, 0x05#8)]).mem.wf = true := by decide
theorem witness_StepRunsTheDecodedInstruction : run0.phase = .running 0x30#16 ∧ run0.pc < 0x30#16 ∧
    decodeBytes chip.opcodeDecode (readValue run0.mem run0.pc.toNat) (readValue run0.mem (run0.pc.toNat + 1))
      (readValue run0.mem (run0.pc.toNat + 2)) = .ok (.jmp 0x000F#16) ∧
    exec (.jmp 0x000F#16) { run0 with log := run0.log ++ fetchReports run0.pc } = .next { run0 with pc := 0x000F#16 } ∧
    run0.pc.toNat + 2 < 2048 := ⟨rfl, by decide, rfl, rfl, by decide⟩
theorem witness_RunEndsExactlyAtTheBound : run0.phase = .running 0x30#16 ∧ run0.pc < 0x30#16 ∧
    ¬ (running run0 0x30#16 0x30#16).pc < 0x30#16 ∧ State.reset.phase = .idle ∧ ¬ (5#16 : Addr) < 5#16 ∧
    (∀ j, j < 1 → ∀ u : State, Sys2Proof.core.run j run0 = .next u → u.pc < 0x30#16) := by
  refine ⟨rfl, by decide, by decide, rfl, by decide, fun j hj u hu => ?_⟩
  obtain rfl : j = 0 := by omega
  obtain rfl : run0 = u := Host.Outcome.next.inj hu
  decide
theorem witness_IdleStepChangesNothing : State.reset.phase = .idle := by decide
theorem witness_NoConditionStopsTheCore : run0.phase = .running 0x30#16 ∧ run0.pc < 0x30#16 := ⟨rfl, by decide⟩
theorem witness_RefuseHighRefusesTheStep : (Config.Params.mk .truncated .refuseHigh .adcStructure).opcodeDecode = .refuseHigh ∧
    (running (st 0#8 0#8 none [(0, 0x10#8)]) 0#16 3#16).phase = .running 3#16 ∧ (0#16 : Addr) < 3#16 ∧
    15 < (readValue [(0, 0x10#8)] 0).toNat := by decide
theorem witness_StepPastMemoryIsAReportedNop : (running State.reset 0x0800#16 0xFFFF#16).phase = .running 0xFFFF#16 ∧
    (0x0800#16 : Addr) < 0xFFFF#16 ∧ 2048 ≤ (0x0800#16 : Addr).toNat := by decide
theorem witness_StepReportsInPseudocodeOrder : run0.phase = .running 0x30#16 ∧ run0.pc < 0x30#16 ∧
    decodeBytes chip.opcodeDecode (readValue run0.mem run0.pc.toNat) (readValue run0.mem (run0.pc.toNat + 1))
      (readValue run0.mem (run0.pc.toNat + 2)) = .ok (.jmp 0x000F#16) := ⟨rfl, by decide, rfl⟩
theorem witness_ReportLogIsNeverRead : stepWith Config.Params.spec State.reset = .next State.reset := rfl
theorem witness_EveryMoveKeepsTheInvariant : run0.inv = true ∧ (nextState (step run0)).isSome = true ∧
    sysStep Config.Params.spec (.host .reset) run0 = .next State.reset := ⟨by decide, by decide, rfl⟩
theorem witness_ReachableStatesKeepCacheAndReservedBits (p : Config.Params) : Reachable p (running State.reset 3#16 9#16) :=
  .move State.reset _ (.host (.run 3#16 9#16)) .reset rfl
theorem witness_TruncatedCarryStaysClear : Config.Params.spec.carryMode = .truncated ∧ run0.flagC = false ∧
    sysStep Config.Params.spec (.host .observe) State.reset = .next State.reset := ⟨rfl, by decide, rfl⟩
theorem witness_InstructionSegmentIsWrittenOnlyByItsPort : run0.mem.wf = true ∧
    sysStep Config.Params.spec (.host .observe) State.reset = .next State.reset ∧ Event.core ≠ .host .reset := ⟨by decide, rfl, by decide⟩
theorem witness_StaleEntriesComeOnlyFromTheListedPaths : run0.inv = true ∧ State.reset.coherent ∧
    (st 0x42#8 0#8 (some ⟨0x0100#16, 0x00#8⟩) []).inv = true ∧
    (st 0x42#8 0#8 (some ⟨0x0100#16, 0x00#8⟩) []).cache.lookup State.reset.sp = .hit 0x00#8 ∧
    Memory.get [(0x10, 0x05#8)] 0x10 ≠ add8 0x01#8 (operandValue (st 0x01#8 0#8 none [(0x10, 0x05#8)]) 0x0010#16) false :=
  ⟨by decide, fun w v h => by simp [Machine.State.reset, Cache.empty, Cache.lookup, slotFind] at h, by decide, by decide, by decide⟩
theorem witness_PlacedWordRunsNext : State.reset.mem.wf = true ∧ decodeTableWord 24 0x020001 = some (.lda 0x0001#16) := by decide
theorem witness_EveryWordHasExactlyOneMeaning : (Instr.undefined 0x08#8 0x1234#16).wellFormed .fullByte = true ∧
    encode (.undefined 0x08#8 0x1234#16) = wordBytes 0x081234#24 := by decide
theorem witness_ReadByteOrSentinel : 2047 < 2048 ∧ 2048 ≤ 2048 := by decide
theorem witness_LdaLoadsAndCaches : (st 0#8 0#8 (some ⟨0x300#16, 0#8⟩) []).cache.lookup 0x300#16 = .hit 0#8 ∧
    State.reset.cache.lookup 0x07FF#16 = .miss ∧ State.reset.cache.lookup 0x0800#16 = .miss ∧ 2048 ≤ (0x0800#16).toNat := by decide
theorem witness_AndMasksTheAccumulator : (st 0#8 0#8 (some ⟨0x300#16, 0#8⟩) []).cache.lookup 0x300#16 = .hit 0#8 ∧
    State.reset.cache.lookup 0x07FF#16 = .miss ∧ State.reset.cache.lookup 0x0800#16 = .miss ∧ 2048 ≤ (0x0800#16).toNat := by decide
theorem witness_FlagWritesTouchOnlyTheirBits :
    (executeWith Config.Params.spec (.adc 0x300#16) (st 0x7F#8 0#8 none [(0x300, 1#8)])).status.getLsbD 1 ≠
      (st 0x7F#8 0#8 none [(0x300, 1#8)]).status.getLsbD 1 ∧
    (executeWith Config.Params.spec (.and 0x300#16) State.reset).status.getLsbD 5 ≠ State.reset.status.getLsbD 5 := by decide
theorem witness_CachePolicyOfEachOperation : (st 0#8 0#8 (some ⟨0x300#16, 7#8⟩) []).cache.lookup 0x300#16 = .hit 7#8 ∧
    ∀ addr : Addr, Instr.psh 0#16 ≠ .adc addr ∧ Instr.psh 0#16 ≠ .sbc addr ∧ Instr.psh 0#16 ≠ .lda addr ∧ Instr.psh 0#16 ≠ .and addr :=
  ⟨by decide, fun _ => ⟨nofun, nofun, nofun, nofun⟩⟩
theorem witness_FetchAndStackIgnoreTheCache : ∃ w : Addr, Instr.undefined 0xFF#8 0#16 = .psh w ∨ Instr.undefined 0xFF#8 0#16 = .pop w ∨
    Instr.undefined 0xFF#8 0#16 = .jmp w ∨ ∃ b, Instr.undefined 0xFF#8 0#16 = .undefined b w :=
  ⟨0#16, .inr (.inr (.inr ⟨0xFF#8, rfl⟩))⟩

end Sys2Proof.Tests
end

/-! # Proofs of the state's statements (10_state.md R20 to R41)

What a move of either agent can do is said once (`sysStep_cases`); the invariants of the state are packaged over it
(`sysStep_preserves`, `Reachable.induct`), and the two statements about what cannot be seen, the slot order and the log,
rest on how every instruction acts on a state with another cache or another log. -/

section

namespace Sys2Proof.Machine

/-! ### The moves of the two agents -/

theorem stepWith_of_idle {p : Config.Params} {s : State} (h : s.phase = .idle) : stepWith p s = .next s := by
  simp only [stepWith_eq, h]

theorem stepWith_of_not_lt {p : Config.Params} {s : State} {bound : Addr} (hp : s.phase = .running bound)
    (hge : ¬ s.pc < bound) : stepWith p s = .next { s with phase := .idle } := by
  simp only [stepWith_eq, hp, hge, if_false]

theorem stepWith_of_decoded {p : Config.Params} {s : State} {bound : Addr} {i : Instr} (hp : s.phase = .running bound)
    (hlt : s.pc < bound) (hi : fetchedInstr p.opcodeDecode s = .ok i) :
    stepWith p s = .next (executeWith p i s.fetched).advance := by
  simp only [stepWith_eq, hp, hlt, if_true, hi]

/-- Everything an answered move of either agent can leave, by what it may write: RESET's state, a new PC, phase or log,
an instruction's effect, with or without the loop around it, or a write port's. -/
theorem sysStep_cases {p : Config.Params} {e : Event} {s t : State} (h : sysStep p e s = .next t) :
    (e = .host .reset ∧ t = State.reset) ∨
    (∃ pc phase log, t = { s with pc := pc, phase := phase, log := log }) ∨
    (∃ i, t = executeWith p i s) ∨
    (∃ i, t = (executeWith p i s.fetched).advance) ∨
    (∃ q w v, (q = .instruction → e = .host (.writeInstructionByte w v)) ∧ t = (memWrite q w v s).2) := by
  cases e with
  | core =>
    rcases stepWith_cases h with ⟨-, rfl⟩ | ⟨-, -, -, rfl⟩ | ⟨-, i, -, -, -, rfl⟩
    · exact .inr (.inl ⟨_, _, _, rfl⟩)
    · exact .inr (.inl ⟨_, _, _, rfl⟩)
    · exact .inr (.inr (.inr (.inl ⟨i, rfl⟩)))
  | host c =>
    obtain ⟨r, hr⟩ := sysStep_host h
    rcases hostCommandWith_cases hr with
      ⟨rfl, rfl⟩ | ⟨_, _, -, rfl⟩ | ⟨op, w, -, rfl⟩ | ⟨_, -, rfl⟩ | ⟨q, w, v, hq, rfl⟩ | ⟨-, rfl⟩
    · exact .inl ⟨rfl, rfl⟩
    · exact .inr (.inl ⟨_, _, _, rfl⟩)
    · exact .inr (.inr (.inl ⟨op.toInstr w, rfl⟩))
    · exact .inr (.inl ⟨_, _, _, rfl⟩)
    · refine .inr (.inr (.inr (.inr ⟨q, w, v, ?_, rfl⟩)))
      rintro rfl
      simpa using hq
    · exact .inr (.inl ⟨_, _, _, rfl⟩)

/-- A property that PC, phase and log do not enter is kept by a move if the instructions keep it, and RESET and the
write ports where the move is theirs. -/
theorem sysStep_preserves {p : Config.Params} {e : Event} {s t : State} {P : State → Prop}
    (hcontrol : ∀ (u : State) pc phase log, P u → P { u with pc := pc, phase := phase, log := log })
    (hreset : e = .host .reset → P State.reset) (hexec : ∀ i u, P u → P (executeWith p i u))
    (hwrite : ∀ q w v u, (q = .instruction → e = .host (.writeInstructionByte w v)) → P u → P (memWrite q w v u).2)
    (hs : P s) (h : sysStep p e s = .next t) : P t := by
  rcases sysStep_cases h with ⟨he, rfl⟩ | ⟨pc, phase, log, rfl⟩ | ⟨i, rfl⟩ | ⟨i, rfl⟩ | ⟨q, w, v, hq, rfl⟩
  · exact hreset he
  · exact hcontrol s pc phase log hs
  · exact hexec i s hs
  · exact hcontrol _ _ _ _ (hexec i _ (hcontrol s _ _ _ hs))
  · exact hwrite q w v s hq hs

/-- What holds after reset and is kept by every move holds of every reachable state. -/
theorem Reachable.induct {p : Config.Params} {P : State → Prop} (hreset : P State.reset)
    (hmove : ∀ (e : Event) (s t : State), P s → sysStep p e s = .next t → P t) {s : State} (h : Reachable p s) :
    P s := by
  induction h with
  | reset => exact hreset
  | move s t e _ hst ih => exact hmove e s t ih hst

/-! ### The invariant (10_state.md R29, R39) -/

theorem reset_inv : State.reset.inv = true := by decide

theorem executeWith_inv (p : Config.Params) (i : Instr) {s : State} (h : s.inv = true) :
    (executeWith p i s).inv = true := by
  obtain ⟨hmem, hcache, hstatus⟩ := (State.inv_iff s).1 h
  exact (State.inv_iff _).2 ⟨executeWith_mem_wf p i hmem, executeWith_distinct p i hcache,
    (executeWith_reserved p i s).trans hstatus⟩

theorem memWrite_inv (q : Port) (w : Addr) (v : Byte) {s : State} (h : s.inv = true) :
    (memWrite q w v s).2.inv = true := by
  obtain ⟨hmem, hcache, hstatus⟩ := (State.inv_iff s).1 h
  refine (State.inv_iff _).2 ⟨memWrite_wf q w v hmem, ?_, ?_⟩
  · simpa only [memWrite_eq] using hcache
  · simpa only [memWrite_eq] using hstatus

theorem sysStep_inv {p : Config.Params} {e : Event} {s t : State} (hs : s.inv = true) (h : sysStep p e s = .next t) :
    t.inv = true :=
  sysStep_preserves (P := fun u => u.inv = true) (fun _ _ _ _ hu => hu) (fun _ => reset_inv)
    (fun i _ hu => executeWith_inv p i hu) (fun q w v _ _ hu => memWrite_inv q w v hu) hs h

/-- Settles O45: memory's form, the distinct cache addresses and the reserved bits are kept by every instruction and
every write port, and nothing else writes them. -/
theorem everyMoveKeepsTheInvariant : Obligations.EveryMoveKeepsTheInvariant := by
  unfold Obligations.EveryMoveKeepsTheInvariant
  refine ⟨fun s t hs h => ?_, fun p e s t hs h => sysStep_inv hs h⟩
  rw [step_eq_stepWith] at h
  exact sysStep_inv (e := .core) hs h

/-- Settles O46: the invariant holds of every reachable state, and a cache has three slots. -/
theorem reachableStatesKeepCacheAndReservedBits : Obligations.ReachableStatesKeepCacheAndReservedBits := by
  unfold Obligations.ReachableStatesKeepCacheAndReservedBits
  intro p s hs
  have hinv : s.inv = true := hs.induct reset_inv fun e s t => sysStep_inv
  obtain ⟨-, hcache, hstatus⟩ := (State.inv_iff s).1 hinv
  exact ⟨(Cache.distinct_iff _).1 hcache, Cache.live_length _, (reserved_zero_iff _).1 hstatus⟩

/-! ### The carry under `truncated` (10_state.md R40) -/

theorem writeNZ_bitC (st r : Byte) : (writeNZ st r).getLsbD Config.bitC = st.getLsbD Config.bitC := by
  rw [getLsbD_writeNZ, if_neg (by decide), if_neg (by decide)]

/-- Under `truncated` ADC and SBC write C as 0, and no other instruction writes it (40_fetch_execute.md R118, R120). -/
theorem executeWith_flagC_of_truncated {p : Config.Params} (hp : p.carryMode = .truncated) (i : Instr) {s : State}
    (h : s.flagC = false) : (executeWith p i s).flagC = false := by
  cases i with
  | adc w => simp only [executeWith, adcOp_eq, State.flagC, writeNOZC_bitC, hp, cAdc]
  | sbc w => simp only [executeWith, sbcOp_eq, State.flagC, writeNOZC_bitC, hp, cSbc]
  | and w => simpa only [executeWith, andOp_eq, State.flagC, writeNZ_bitC] using h
  | eor w => simpa only [executeWith, eorOp_eq, State.flagC, writeNZ_bitC] using h
  | _ => simpa only [executeWith, ldaOp_eq, jmpOp_eq, pshOp_eq, popOp_eq, undefinedOp_eq, State.flagC] using h

theorem memWrite_flagC (q : Port) (w : Addr) (v : Byte) (s : State) : (memWrite q w v s).2.flagC = s.flagC := by
  simp only [memWrite_eq, State.flagC]

theorem sysStep_flagC_of_truncated {p : Config.Params} (hp : p.carryMode = .truncated) {e : Event} {s t : State}
    (hs : s.flagC = false) (h : sysStep p e s = .next t) : t.flagC = false :=
  sysStep_preserves (P := fun u => u.flagC = false) (fun _ _ _ _ hu => hu) (fun _ => by decide)
    (fun i _ hu => executeWith_flagC_of_truncated hp i hu) (fun q w v u _ hu => (memWrite_flagC q w v u).trans hu) hs h

/-- Settles O47: no instruction sets C under `truncated`, and of the other moves only RESET writes STATUS. -/
theorem truncatedCarryStaysClear : Obligations.TruncatedCarryStaysClear := by
  unfold Obligations.TruncatedCarryStaysClear
  intro p hp
  refine ⟨fun e s t hs h => sysStep_flagC_of_truncated hp hs h, fun s hs => ?_⟩
  exact hs.induct (by decide) fun e s t => sysStep_flagC_of_truncated hp

/-! ### What an instruction may change (10_state.md R30, R41) -/

theorem jmp_of_pc_changed {p : Config.Params} {i : Instr} {s : State} (h : (executeWith p i s).pc ≠ s.pc) :
    ∃ w, i = .jmp w := by
  cases i with
  | jmp w => exact ⟨w, rfl⟩
  | _ => exact absurd (executeWith_pc p _ s) h

theorem stackOp_of_sp_changed {p : Config.Params} {i : Instr} {s : State} (h : (executeWith p i s).sp ≠ s.sp) :
    ∃ w, i = .psh w ∨ i = .pop w := by
  cases i with
  | psh w => exact ⟨w, .inl rfl⟩
  | pop w => exact ⟨w, .inr rfl⟩
  | _ => simp [executeWith, adcOp_eq, sbcOp_eq, ldaOp_eq, andOp_eq, eorOp_eq, jmpOp_eq, undefinedOp_eq] at h

theorem load_of_a_changed {p : Config.Params} {i : Instr} {s : State} (h : (executeWith p i s).a ≠ s.a) :
    ∃ w, i = .lda w ∨ i = .and w ∨ i = .eor w ∨ i = .pop w := by
  cases i with
  | lda w => exact ⟨w, .inl rfl⟩
  | and w => exact ⟨w, .inr (.inl rfl)⟩
  | eor w => exact ⟨w, .inr (.inr (.inl rfl))⟩
  | pop w => exact ⟨w, .inr (.inr (.inr rfl))⟩
  | _ => simp [executeWith, adcOp_eq, sbcOp_eq, jmpOp_eq, pshOp_eq, undefinedOp_eq] at h

/-- A store that happens only in one segment changes at most the byte at its address, in that segment. -/
theorem storeIn_changed {m : Memory} {g : Segment} {lo hi : Nat} {w : Addr} {v : Byte} {k : Nat} (h : m.wf = true)
    (hg : seg w = g ↔ lo ≤ w.toNat ∧ w.toNat < hi)
    (hne : (if seg w = g then m.set w.toNat v else m).get k ≠ m.get k) : k = w.toNat ∧ lo ≤ k ∧ k < hi := by
  by_contra hk
  exact hne (by rw [get_storeIn v h hg, if_neg hk])

/-- A byte of memory is written only by ADC and SBC in the data segment and by PSH in the stack segment. -/
theorem store_of_mem_changed {p : Config.Params} {i : Instr} {s : State} (hs : s.mem.wf = true) {k : Nat}
    (h : (executeWith p i s).mem.get k ≠ s.mem.get k) :
    (∃ w, (i = .adc w ∨ i = .sbc w) ∧ k = w.toNat ∧ 512 ≤ k ∧ k < 2048) ∨
    (∃ w, i = .psh w ∧ k = s.sp.toNat ∧ 256 ≤ k ∧ k < 512) := by
  cases i with
  | adc w =>
    simp only [executeWith, adcOp_eq] at h
    exact .inl ⟨w, .inl rfl, storeIn_changed hs (seg_eq_data_iff w) h⟩
  | sbc w =>
    simp only [executeWith, sbcOp_eq] at h
    exact .inl ⟨w, .inr rfl, storeIn_changed hs (seg_eq_data_iff w) h⟩
  | psh w =>
    simp only [executeWith, pshOp_eq] at h
    exact .inr ⟨w, rfl, storeIn_changed hs (seg_eq_stack_iff s.sp) h⟩
  | _ => simp [executeWith, ldaOp_eq, andOp_eq, eorOp_eq, jmpOp_eq, popOp_eq, undefinedOp_eq] at h

/-- Settles O32: one frame lemma for each register and one for memory, by cases on the instruction. -/
theorem onlyTheNamedStateChanges : Obligations.OnlyTheNamedStateChanges := by
  unfold Obligations.OnlyTheNamedStateChanges
  exact fun p i s hs => ⟨jmp_of_pc_changed, stackOp_of_sp_changed, load_of_a_changed, executeWith_phase p i s,
    fun k => store_of_mem_changed hs⟩

/-- No instruction writes below the stack segment. -/
theorem executeWith_get_instr (p : Config.Params) (i : Instr) {s : State} (hs : s.mem.wf = true) {k : Nat}
    (hk : k < 256) : (executeWith p i s).mem.get k = s.mem.get k := by
  by_contra h
  rcases store_of_mem_changed hs h with ⟨_, -, -, hlo, -⟩ | ⟨_, -, -, hlo, -⟩ <;> omega

/-- No write port but the instruction port writes below the stack segment. -/
theorem memWrite_get_instr {q : Port} (hq : q ≠ .instruction) (w : Addr) (v : Byte) {s : State} (hs : s.mem.wf = true)
    {k : Nat} (hk : k < 256) : (memWrite q w v s).2.mem.get k = s.mem.get k := by
  rw [memWrite_eq]
  cases q with
  | instruction => exact absurd rfl hq
  | stack => exact (get_storeIn v hs (seg_eq_stack_iff w) k).trans (if_neg (by omega))
  | data => exact (get_storeIn v hs (seg_eq_data_iff w) k).trans (if_neg (by omega))

/-- Memory in its one form, with the instruction segment that `m` has. -/
def State.keepsInstrSegment (m : Memory) (s : State) : Prop := s.mem.wf = true ∧ ∀ k, k < 256 → s.mem.get k = m.get k

/-- Settles O48: no instruction and neither the stack port nor the data port writes below 256. -/
theorem instructionSegmentIsWrittenOnlyByItsPort : Obligations.InstructionSegmentIsWrittenOnlyByItsPort := by
  unfold Obligations.InstructionSegmentIsWrittenOnlyByItsPort
  intro p e s t hs h hreset hport
  have hkept : t.keepsInstrSegment s.mem := by
    refine sysStep_preserves (fun _ _ _ _ hu => hu) (fun he => absurd he hreset) ?_ ?_ ⟨hs, fun _ _ => rfl⟩ h
    · intro i u ⟨hu, hget⟩
      exact ⟨executeWith_mem_wf p i hu, fun k hk => (executeWith_get_instr p i hu hk).trans (hget k hk)⟩
    · intro q w v u hq ⟨hu, hget⟩
      have hq' : q ≠ .instruction := fun hi => hport w v (hq hi)
      exact ⟨memWrite_wf q w v hu, fun k hk => (memWrite_get_instr hq' w v hu hk).trans (hget k hk)⟩
  exact hkept.2

/-! ### The report log (10_state.md R36) -/

/-- The reports an instruction makes, in order, as a function of the state it starts from (60_exceptions.md R203). -/
def instrReports (s : State) : Instr → List Report
  | .adc w => operandReports s w ++ writeReports .data w (add8 s.a (operandValue s w) s.flagC)
  | .sbc w => operandReports s w ++ writeReports .data w (sub8 (operandValue s w) s.a s.flagC)
  | .lda w => operandReports s w
  | .and w => operandReports s w
  | .eor w => operandReports s w
  | .jmp _ => []
  | .psh _ => writeReports .stack s.sp s.a
  | .pop _ => readReports (s.sp - 1#16).toNat
  | .undefined opcode _ => [.undefOpcode s.pc opcode]

theorem readReports_length (k : Nat) : (readReports k).length ≤ 1 := by
  unfold readReports
  split <;> simp

theorem writeReports_length (q : Port) (w : Addr) (v : Byte) : (writeReports q w v).length ≤ 1 := by
  unfold writeReports
  split
  · simp
  · split <;> simp

theorem operandReports_length (s : State) (w : Addr) : (operandReports s w).length ≤ 1 := by
  unfold operandReports
  split
  · simp
  · exact readReports_length _

theorem fetchReports_length (pc : Addr) : (fetchReports pc).length ≤ 3 := by
  have h0 := readReports_length pc.toNat
  have h1 := readReports_length (pc.toNat + 1)
  have h2 := readReports_length (pc.toNat + 2)
  simp only [fetchReports, List.length_append]
  omega

theorem instrReports_length (s : State) (i : Instr) : (instrReports s i).length ≤ 2 := by
  have hop := operandReports_length s
  have hwrite := writeReports_length
  cases i with
  | adc w | sbc w => simpa only [instrReports, List.length_append] using Nat.add_le_add (hop w) (hwrite _ _ _)
  | lda w | and w | eor w => exact (hop w).trans (by decide)
  | psh w => exact (hwrite _ _ _).trans (by decide)
  | pop w => exact (readReports_length _).trans (by decide)
  | jmp w | undefined b w => simp [instrReports]

/-- With another log an instruction appends the same reports to that log and does the same otherwise. -/
theorem executeWith_withLog (p : Config.Params) (i : Instr) (s : State) (l : List Report) :
    executeWith p i { s with log := l } = { executeWith p i s with log := l ++ instrReports s i } := by
  have hval (w : Addr) : operandValue { s with log := l } w = operandValue s w := rfl
  have hrep (w : Addr) : operandReports { s with log := l } w = operandReports s w := rfl
  have hflag : State.flagC { s with log := l } = s.flagC := rfl
  cases i <;> simp only [executeWith, instrReports, adcOp_eq, sbcOp_eq, ldaOp_eq, andOp_eq, eorOp_eq, jmpOp_eq, pshOp_eq,
    popOp_eq, undefinedOp_eq, hval, hrep, hflag, List.append_assoc, List.append_nil]

/-- Settles O43: a step below the bound appends the fetch's reports, three at most, and the instruction's, two at most;
any other step appends none. -/
theorem reportLogIsNeverRead : Obligations.ReportLogIsNeverRead := by
  unfold Obligations.ReportLogIsNeverRead
  intro p s t h
  rcases stepWith_cases h with ⟨hp, rfl⟩ | ⟨bound, hp, hge, rfl⟩ | ⟨bound, i, hp, hlt, hi, rfl⟩
  · exact ⟨[], by simp, fun l => by rw [List.append_nil]; exact stepWith_of_idle hp⟩
  · exact ⟨[], by simp, fun l => by rw [List.append_nil]; exact stepWith_of_not_lt hp hge⟩
  · refine ⟨fetchReports s.pc ++ instrReports s i, ?_, fun l => ?_⟩
    · have hfetch := fetchReports_length s.pc
      have hinstr := instrReports_length s i
      rw [List.length_append]
      omega
    · have hs := executeWith_withLog p i s (s.log ++ fetchReports s.pc)
      have hl := executeWith_withLog p i s (l ++ fetchReports s.pc)
      rw [stepWith_of_decoded (s := { s with log := l }) hp hlt hi]
      simp only [State.fetched, State.advance, State.setPc, hs, hl, List.append_assoc]

/-! ### The slots of the cache (10_state.md R33) -/

theorem Cache.distinct_perm {c d : Cache} (h : c.distinct = true) (hp : c.live.Perm d.live) : d.distinct = true := by
  rw [Cache.distinct_iff] at *
  exact (hp.map _).nodup_iff.1 h

/-- Caches in which every address looks up alike have the same live pairs. -/
theorem Cache.perm_of_lookup_eq {c d : Cache} (hc : c.distinct = true) (hd : d.distinct = true)
    (h : ∀ w, c.lookup w = d.lookup w) : c.live.Perm d.live := by
  refine (List.perm_ext_iff_of_nodup ((Cache.distinct_iff c).1 hc).of_map ((Cache.distinct_iff d).1 hd).of_map).2 ?_
  exact fun e => by rw [← Cache.lookup_eq_hit_iff hc, ← Cache.lookup_eq_hit_iff hd, h]

/-- Which pairs an update leaves live does not depend on which slot holds which pair (20_memory.md R64). -/
theorem Cache.update_perm {c d : Cache} (hc : c.distinct = true) (hp : c.live.Perm d.live) (w : Addr) (v : Byte) :
    (c.update w v).live.Perm (d.update w v).live := by
  have hd := Cache.distinct_perm hc hp
  refine Cache.perm_of_lookup_eq (Cache.distinct_update hc w v) (Cache.distinct_update hd w v) fun b => ?_
  by_cases hb : b = w
  · rw [hb, Cache.lookup_update_self, Cache.lookup_update_self]
  · simp only [Cache.lookup_update_other hc hb, Cache.lookup_update_other hd hb, Cache.lookup_congr hc hp, hp.length_eq,
      hp.mem_iff]

theorem insertEntry_comm_of_lt {x y : CacheEntry} (h : x.addr < y.addr) (l : List CacheEntry) :
    insertEntry y (insertEntry x l) = insertEntry x (insertEntry y l) := by
  have hle : x.addr ≤ y.addr := BitVec.le_of_lt h
  have hnot : ¬ y.addr ≤ x.addr := BitVec.not_le.2 h
  induction l with
  | nil => simp [insertEntry, hle, hnot]
  | cons z rest ih =>
    by_cases hx : x.addr ≤ z.addr
    · by_cases hy : y.addr ≤ z.addr <;> simp [insertEntry, hx, hy, hle, hnot]
    · have hy : ¬ y.addr ≤ z.addr := fun hyz => hx (BitVec.le_trans hle hyz)
      simp [insertEntry, hx, hy, ih]

/-- Entries of different addresses go into a list in either order. -/
theorem insertEntry_comm {x y : CacheEntry} (h : x.addr ≠ y.addr) (l : List CacheEntry) :
    insertEntry y (insertEntry x l) = insertEntry x (insertEntry y l) := by
  by_cases hlt : x.addr < y.addr
  · exact insertEntry_comm_of_lt hlt l
  · have hgt : y.addr < x.addr := by bv_omega
    exact (insertEntry_comm_of_lt hgt l).symm

/-- The host's view of the cache does not depend on which slot holds which pair (40_fetch_execute.md R110). -/
theorem Cache.livePairs_congr {c d : Cache} (hc : c.distinct = true) (hp : c.live.Perm d.live) :
    c.livePairs = d.livePairs := by
  refine hp.foldr_eq' (fun x hx y hy l => ?_) []
  by_cases hxy : x = y
  · rw [hxy]
  · have haddr : x.addr ≠ y.addr := fun h =>
      hxy (List.inj_on_of_nodup_map ((Cache.distinct_iff c).1 hc) hx hy h)
    exact insertEntry_comm haddr l

/-- A state alike but for the slots is the state with another cache of the same live pairs. -/
theorem sameButSlots_iff {s t : State} : SameButSlots s t ↔ ∃ d : Cache, s.cache.live.Perm d.live ∧ t = s.setCache d := by
  constructor
  · rintro ⟨hp, hrest⟩
    exact ⟨t.cache, hp, by rw [← hrest]; rfl⟩
  · rintro ⟨d, hp, rfl⟩
    exact ⟨hp, rfl⟩

theorem SameButSlots.refl (s : State) : SameButSlots s s := ⟨.refl _, rfl⟩

theorem SameButSlots.advance {s t : State} (h : SameButSlots s t) : SameButSlots s.advance t.advance := by
  obtain ⟨d, hp, rfl⟩ := sameButSlots_iff.1 h
  exact ⟨hp, rfl⟩

theorem SameButSlots.observation_eq {s t : State} (hs : s.cache.distinct = true) (h : SameButSlots s t) :
    s.observation = t.observation := by
  obtain ⟨d, hp, rfl⟩ := sameButSlots_iff.1 h
  simp only [State.observation, State.setCache, Cache.livePairs_congr hs hp]

/-- An instruction leads states alike but for the slots to such states: it reads the cache by lookups and writes it by
updates. -/
theorem SameButSlots.executeWith {s t : State} (hs : s.cache.distinct = true) (h : SameButSlots s t)
    (p : Config.Params) (i : Instr) : SameButSlots (executeWith p i s) (executeWith p i t) := by
  obtain ⟨d, hp, rfl⟩ := sameButSlots_iff.1 h
  have hval (w : Addr) : operandValue (s.setCache d) w = operandValue s w := by
    simp only [operandValue, State.setCache, Cache.lookup_congr hs hp]
  have hrep (w : Addr) : operandReports (s.setCache d) w = operandReports s w := by
    simp only [operandReports, State.setCache, Cache.lookup_congr hs hp]
  have hflag : (s.setCache d).flagC = s.flagC := rfl
  cases i with
  | adc w | sbc w | lda w | and w =>
    simp only [Machine.executeWith, adcOp_eq, sbcOp_eq, ldaOp_eq, andOp_eq, hval, hrep, hflag]
    exact ⟨Cache.update_perm hs hp _ _, rfl⟩
  | eor w | jmp w | psh w | pop w | undefined b w =>
    simp only [Machine.executeWith, eorOp_eq, jmpOp_eq, pshOp_eq, popOp_eq, undefinedOp_eq, hval, hrep]
    exact ⟨hp, rfl⟩

theorem SameButSlots.stepWith {s t s' : State} (hs : s.cache.distinct = true) (h : SameButSlots s t) {p : Config.Params}
    (hstep : stepWith p s = .next s') : ∃ t', Machine.stepWith p t = .next t' ∧ SameButSlots s' t' := by
  obtain ⟨d, hp, rfl⟩ := sameButSlots_iff.1 h
  rcases stepWith_cases hstep with ⟨hphase, rfl⟩ | ⟨bound, hphase, hge, rfl⟩ | ⟨bound, i, hphase, hlt, hi, rfl⟩
  · exact ⟨_, stepWith_of_idle hphase, h⟩
  · exact ⟨_, stepWith_of_not_lt hphase hge, hp, rfl⟩
  · refine ⟨_, stepWith_of_decoded hphase hlt hi, ?_⟩
    have hfetched : SameButSlots s.fetched (s.setCache d).fetched := ⟨hp, rfl⟩
    exact (SameButSlots.executeWith (s := s.fetched) hs hfetched p i).advance

/-- The state a command leaves when it is answered (40_fetch_execute.md R110). -/
def hostAfter (p : Config.Params) (s : State) : HostCommand → State
  | .reset => State.reset
  | .run start bound => { s with pc := start, phase := .running bound }
  | .exec op w => executeWith p (op.toInstr w) s
  | .readByte w => (memRead w.toNat s).2
  | .writeInstructionByte w v => (memWrite .instruction w v s).2
  | .writeStackByte w v => (memWrite .stack w v s).2
  | .writeByte w v => (memWrite .data w v s).2
  | .observe => s

theorem sysStep_host_eq (p : Config.Params) (c : HostCommand) (s : State) : sysStep p (.host c) s =
    if s.isRunning && decide (c ≠ .reset) then .refused .hostCommandWhileRunning else .next (hostAfter p s c) := by
  by_cases hrun : (s.isRunning && decide (c ≠ .reset)) = true
  · simp only [sysStep, hostCommandWith, hostCommandBy, if_pos hrun]
  · simp only [sysStep, hostCommandWith, hostCommandBy, if_neg hrun]
    cases c <;> rfl

theorem SameButSlots.hostAfter {s t : State} (hs : s.cache.distinct = true) (h : SameButSlots s t) (p : Config.Params)
    (c : HostCommand) : SameButSlots (hostAfter p s c) (hostAfter p t c) := by
  cases c with
  | reset => exact .refl _
  | exec op w => exact h.executeWith hs p _
  | observe => exact h
  | _ =>
    obtain ⟨d, hp, rfl⟩ := sameButSlots_iff.1 h
    simp only [Machine.hostAfter, memRead_eq, memWrite_eq]
    exact ⟨hp, rfl⟩

theorem SameButSlots.sysStep {s t s' : State} (hs : s.cache.distinct = true) (h : SameButSlots s t) {p : Config.Params}
    {e : Event} (hmove : sysStep p e s = .next s') : ∃ t', Machine.sysStep p e t = .next t' ∧ SameButSlots s' t' := by
  cases e with
  | core => exact h.stepWith hs hmove
  | host c =>
    have hrunning : t.isRunning = s.isRunning := by
      obtain ⟨d, -, rfl⟩ := sameButSlots_iff.1 h
      rfl
    rw [sysStep_host_eq] at hmove ⊢
    rw [hrunning]
    split at hmove
    · cases hmove
    · next hidle =>
      cases hmove
      exact ⟨_, if_neg hidle, h.hostAfter hs p c⟩

/-- Settles O17: the cache is read by lookups and by the host's sorted view and written by updates, and none of the
three depends on which slot holds which pair. -/
theorem cacheSlotOrderIsUnobservable : Obligations.CacheSlotOrderIsUnobservable := by
  unfold Obligations.CacheSlotOrderIsUnobservable
  exact fun p s t hs h => ⟨h.observation_eq hs, fun e s' hmove => h.sysStep hs hmove⟩

end Sys2Proof.Machine

end

/-! # Proofs of the memory statements (20_memory.md R50 to R76)

The ports first, then the value cache, then what replacing the cache leaves unchanged, and last how the cache and memory
can come to disagree: every instruction either keeps both, or loads, stores or pushes one byte. -/

section

namespace Sys2Proof.Machine

/-! ### Segments and ports (20_memory.md R51 to R58, R76) -/

/-- Settles O11: the range of each of the segment checker's answers. -/
theorem segmentOfAnAddress : Obligations.SegmentOfAnAddress := by
  unfold Obligations.SegmentOfAnAddress
  exact ⟨fun w => ⟨(seg_eq_instr_iff w).2, (seg_eq_stack_iff w).2, (seg_eq_data_iff w).2, (seg_eq_oor_iff w).2⟩,
    rfl, rfl, rfl⟩

/-- Settles O12: the read port, in range and out of range. -/
theorem readByteOrSentinel : Obligations.ReadByteOrSentinel := by
  unfold Obligations.ReadByteOrSentinel
  exact fun s k => ⟨memRead_inRange, memRead_outOfRange⟩

/-- The bounds of the one segment a write port admits (20_memory.md R51, R52). -/
theorem seg_eq_segment_iff {p : Port} {lo hi : Nat}
    (h : p = .instruction ∧ lo = 0 ∧ hi = 256 ∨ p = .stack ∧ lo = 256 ∧ hi = 512 ∨ p = .data ∧ lo = 512 ∧ hi = 2048)
    (w : Addr) : seg w = p.segment ↔ lo ≤ w.toNat ∧ w.toNat < hi := by
  rcases h with ⟨rfl, rfl, rfl⟩ | ⟨rfl, rfl, rfl⟩ | ⟨rfl, rfl, rfl⟩
  · exact (seg_eq_instr_iff w).trans (and_iff_right (Nat.zero_le _)).symm
  · exact seg_eq_stack_iff w
  · exact seg_eq_data_iff w

theorem memWrite_rejectRange {p : Port} {w : Addr} (v : Byte) (s : State) (h : 2048 ≤ w.toNat) :
    memWrite p w v s = (.rejectRange, s.addReport (.oorWrite p w v)) := if_pos h

theorem memWrite_rejectSegment {p : Port} {w : Addr} (v : Byte) (s : State) (hr : w.toNat < 2048)
    (hs : seg w ≠ p.segment) : memWrite p w v s = (.rejectSegment, s.addReport (.segWrite p w v)) :=
  (if_neg (Nat.not_le.2 hr)).trans (if_pos hs)

theorem memWrite_ok {p : Port} {w : Addr} (v : Byte) (s : State) (hs : seg w = p.segment) :
    memWrite p w v s = (.ok, s.setMem (s.mem.set w.toNat v)) :=
  (if_neg (Nat.not_le.2 (seg_inRange hs))).trans (if_neg (not_not.2 hs))

/-- Settles O13: the three outcomes of a write port. -/
theorem writePortsAdmitOneSegment : Obligations.WritePortsAdmitOneSegment := by
  unfold Obligations.WritePortsAdmitOneSegment
  intro s p w v lo hi hmem hp
  have hseg := seg_eq_segment_iff hp w
  refine ⟨memWrite_rejectRange v s, fun ⟨hr, hout⟩ => memWrite_rejectSegment v s hr fun hs => hout (hseg.1 hs),
    fun hin => ⟨_, memWrite_ok v s (hseg.2 hin), ?_, fun k => Memory.get_set_wf hmem⟩⟩
  exact Memory.wf_set hmem (seg_inRange (hseg.2 hin))

theorem hostCommand_readByte {s : State} (h : s.phase = .idle) (w : Addr) :
    hostCommand (.readByte w) s =
      .next ({ s with log := s.log ++ readReports w.toNat }, .byte (readValue s.mem w.toNat)) := by
  rw [hostCommand_of_idle h]
  simp only [hostAction, memRead_eq]

/-- A host's write command is one write through a port, and its reply is the port's outcome (20_memory.md R58, R72). -/
theorem hostCommand_write {s : State} (h : s.phase = .idle) {c : HostCommand} {w : Addr} {v : Byte} {lo hi : Nat}
    (hc : c = .writeByte w v ∧ lo = 512 ∧ hi = 2048 ∨ c = .writeStackByte w v ∧ lo = 256 ∧ hi = 512 ∨
      c = .writeInstructionByte w v ∧ lo = 0 ∧ hi = 256) :
    ∃ p : Port, (seg w = p.segment ↔ lo ≤ w.toNat ∧ w.toNat < hi) ∧
      hostCommand c s = .next ((memWrite p w v s).2, .outcome (memWrite p w v s).1) := by
  rcases hc with ⟨rfl, hlo, hhi⟩ | ⟨rfl, hlo, hhi⟩ | ⟨rfl, hlo, hhi⟩
  · exact ⟨.data, seg_eq_segment_iff (.inr (.inr ⟨rfl, hlo, hhi⟩)) w, hostCommand_of_idle h _⟩
  · exact ⟨.stack, seg_eq_segment_iff (.inr (.inl ⟨rfl, hlo, hhi⟩)) w, hostCommand_of_idle h _⟩
  · exact ⟨.instruction, seg_eq_segment_iff (.inl ⟨rfl, hlo, hhi⟩) w, hostCommand_of_idle h _⟩

theorem memWrite_phase (p : Port) (w : Addr) (v : Byte) (s : State) : (memWrite p w v s).2.phase = s.phase := by
  rw [memWrite_eq]

theorem memWrite_mem (p : Port) (w : Addr) (v : Byte) (s : State) :
    (memWrite p w v s).2.mem = if seg w = p.segment then s.mem.set w.toNat v else s.mem := by
  rw [memWrite_eq]

theorem writeOutcome_eq_ok_iff (p : Port) (w : Addr) : writeOutcome p w = .ok ↔ seg w = p.segment := by
  unfold writeOutcome
  by_cases hs : seg w = p.segment
  · simp [hs, seg_inRange hs]
  · by_cases hr : Config.memSize ≤ w.toNat <;> simp [hs, hr]

theorem memWrite_outcome (p : Port) (w : Addr) (v : Byte) (s : State) :
    (memWrite p w v s).1 = writeOutcome p w := by
  rw [memWrite_eq]

/-- What the read port returns after a store in range (20_memory.md R76). -/
theorem readValue_set {m : Memory} (h : m.wf = true) {w : Addr} (hw : w.toNat < Config.memSize) (v : Byte) (b : Addr) :
    readValue (m.set w.toNat v) b.toNat = if b = w then v else readValue m b.toNat := by
  unfold readValue
  rw [Memory.get_set_wf h]
  by_cases hb : b = w
  · simp [hb, hw]
  · simp [hb, BitVec.toNat_inj]

/-- Settles O10: the port's outcome and memory after the write, and what the read port makes of that memory. -/
theorem portWriteIsReadBack : Obligations.PortWriteIsReadBack := by
  unfold Obligations.PortWriteIsReadBack
  intro s addr other v hidle hmem c lo hi hc
  obtain ⟨p, hseg, hwrite⟩ := hostCommand_write hidle hc
  obtain ⟨t2, hread⟩ : ∃ t2, hostCommand (.readByte other) (memWrite p addr v s).2 =
      .next (t2, .byte (readValue (memWrite p addr v s).2.mem other.toNat)) :=
    ⟨_, hostCommand_readByte ((memWrite_phase p addr v s).trans hidle) other⟩
  refine ⟨_, t2, _, _, _, hwrite, hostCommand_readByte hidle other, fun hin => ?_, fun hout => ?_⟩
  · have hs := hseg.2 hin
    refine ⟨by rw [memWrite_outcome, (writeOutcome_eq_ok_iff p addr).2 hs], hread.trans ?_⟩
    rw [memWrite_mem, if_pos hs, readValue_set hmem (seg_inRange hs)]
  · have hs : ¬ seg addr = p.segment := fun h => hout (hseg.1 h)
    have hkept : (memWrite p addr v s).2.mem = s.mem := (memWrite_mem p addr v s).trans (if_neg hs)
    refine ⟨?_, hkept, hread.trans (by rw [hkept])⟩
    rw [memWrite_outcome, Ne, HostReply.outcome.injEq, writeOutcome_eq_ok_iff]
    exact hs

/-! ### The value cache (20_memory.md R63 to R65) -/

/-- Settles O14: a hit is membership of the pair, a miss that of no pair with the address. -/
theorem lookupFindsExactlyTheLiveEntries : Obligations.LookupFindsExactlyTheLiveEntries := by
  unfold Obligations.LookupFindsExactlyTheLiveEntries
  refine fun c w hc => ⟨fun v => Cache.lookup_eq_hit_iff hc, (Cache.lookup_eq_miss_iff c w).trans ?_⟩
  simp [Cache.liveAddrs]

/-- An update that overwrites an entry or fills a free slot leaves the lookup of every other address as it was. -/
theorem Cache.lookup_update_of_room {c : Cache} (h : c.distinct = true) {w b : Addr} {v : Byte}
    (hroom : c.lookup w ≠ .miss ∨ c.live.length < 3) (hb : b ≠ w) : (c.update w v).lookup b = c.lookup b := by
  rw [Cache.lookup_update_other h hb, if_neg]
  rintro ⟨hmiss, hfull, -⟩
  rcases hroom with hhit | hfree
  · exact hhit hmiss
  · omega

/-- A miss adds one live entry if a slot is free. -/
theorem Cache.live_length_update_of_free {c : Cache} {w : Addr} (v : Byte) (hmiss : c.lookup w = .miss)
    (hfree : c.live.length < 3) : (c.update w v).live.length = c.live.length + 1 := by
  obtain ⟨gone, kept, hlive, hnew, ⟨e, rfl, hw⟩ | ⟨-, rfl, -⟩ | ⟨-, hfull, -⟩⟩ := c.live_update w v
  · exact absurd (hw ▸ List.mem_map_of_mem (hlive.mem_iff.2 (by simp))) ((c.lookup_eq_miss_iff w).1 hmiss)
  · simpa [hlive.length_eq] using hnew.length_eq
  · omega

/-- A miss in a full cache leaves it full and drops one live entry, of the smallest address. -/
theorem Cache.evicted {c : Cache} (h : c.distinct = true) {w : Addr} (v : Byte) (hmiss : c.lookup w = .miss)
    (hfull : c.live.length = 3) : (c.update w v).live.length = 3 ∧
      ∃ gone ∈ c.live, (∀ e ∈ c.live, gone.addr ≤ e.addr) ∧ (c.update w v).lookup gone.addr = .miss ∧
        ∀ b, b ≠ w → b ≠ gone.addr → (c.update w v).lookup b = c.lookup b := by
  have hdead := (c.lookup_eq_miss_iff w).1 hmiss
  obtain ⟨gone, kept, hlive, hnew, ⟨e, rfl, hw⟩ | ⟨-, -, hfree⟩ | ⟨-, -, e, rfl, hmin⟩⟩ := c.live_update w v
  · exact absurd (hw ▸ List.mem_map_of_mem (hlive.mem_iff.2 (by simp))) hdead
  · omega
  have he : e ∈ c.live := hlive.mem_iff.2 (by simp)
  have hew : e.addr ≠ w := fun hw => hdead (hw ▸ List.mem_map_of_mem he)
  refine ⟨?_, e, he, hmin, ?_, fun b hbw hbe => ?_⟩
  · have hold := hlive.length_eq
    have hupd := hnew.length_eq
    simp only [List.length_append, List.length_cons, List.length_nil] at hold hupd
    omega
  · rw [Cache.lookup_update_other h hew, if_pos ⟨hmiss, hfull, hmin⟩]
  · rw [Cache.lookup_update_other h hbw]
    split
    · next hc =>
      obtain ⟨-, -, hbmin⟩ := hc
      -- an address below all live ones that is not the smallest live one is not live
      refine ((c.lookup_eq_miss_iff b).2 fun hb => ?_).symm
      obtain ⟨e', he', rfl⟩ := List.mem_map.1 hb
      exact hbe (BitVec.le_antisymm (hbmin e he) (hmin e' he'))
    · rfl

/-- Settles O15: hit, free slot and eviction. -/
theorem updateEvictsTheSmallestAddress : Obligations.UpdateEvictsTheSmallestAddress := by
  unfold Obligations.UpdateEvictsTheSmallestAddress
  exact fun c w v hc => ⟨Cache.distinct_update hc w v, Cache.lookup_update_self c w v,
    fun hroom b hb => Cache.lookup_update_of_room hc hroom hb,
    fun ⟨hmiss, hfree⟩ => Cache.live_length_update_of_free v hmiss hfree,
    fun ⟨hmiss, hfull⟩ => Cache.evicted hc v hmiss hfull⟩

/-- Settles O16: on a hit the cached value, on a miss the read port's value and report. -/
theorem readThroughConsultsTheCacheFirst : Obligations.ReadThroughConsultsTheCacheFirst := by
  unfold Obligations.ReadThroughConsultsTheCacheFirst
  refine fun s w populate => ⟨fun v hhit => readThrough_hit hhit populate, fun hmiss => ?_⟩
  refine ⟨_, readThrough_miss hmiss populate, rfl, rfl, rfl, rfl, rfl, rfl, rfl, ?_, ?_⟩
  · rintro rfl
    rfl
  · rintro rfl
    rfl

/-! ### What neither reads nor writes the cache (20_memory.md R67) -/

/-- PSH, POP, JMP and an undefined opcode commute with a change of the cache, and so leave it alone. -/
theorem executeWith_setCache (p : Config.Params) {i : Instr}
    (hi : ∃ w, i = .psh w ∨ i = .pop w ∨ i = .jmp w ∨ ∃ b, i = .undefined b w) (s : State) (c : Cache) :
    executeWith p i (s.setCache c) = (executeWith p i s).setCache c := by
  obtain ⟨w, rfl | rfl | rfl | ⟨b, rfl⟩⟩ := hi
  · simp only [executeWith, pshOp_eq, State.setCache]
  · simp only [executeWith, popOp_eq, State.setCache]
  · rfl
  · rfl

theorem executeWith_cache_of_ignored (p : Config.Params) {i : Instr}
    (hi : ∃ w, i = .psh w ∨ i = .pop w ∨ i = .jmp w ∨ ∃ b, i = .undefined b w) (s : State) :
    (executeWith p i s).cache = s.cache :=
  (congrArg State.cache (executeWith_setCache p hi s s.cache) :)

theorem memWrite_setCache (p : Port) (w : Addr) (v : Byte) (s : State) (c : Cache) :
    memWrite p w v (s.setCache c) = ((memWrite p w v s).1, (memWrite p w v s).2.setCache c) := by
  simp only [memWrite_eq, State.setCache]

theorem memRead_setCache (k : Nat) (s : State) (c : Cache) :
    memRead k (s.setCache c) = ((memRead k s).1, (memRead k s).2.setCache c) := by
  simp only [memRead_eq, State.setCache]

theorem fetch_setCache (s : State) (c : Cache) :
    fetch (s.setCache c) = { fetch s with after := (fetch s).after.setCache c } := by
  simp only [fetch_eq, State.setCache]

/-- Settles O42: each of these operations commutes with a change of the cache. -/
theorem fetchAndStackIgnoreTheCache : Obligations.FetchAndStackIgnoreTheCache := by
  unfold Obligations.FetchAndStackIgnoreTheCache
  intro s c
  rw [fetch_setCache]
  refine ⟨rfl, rfl, rfl, rfl, ?_, fun i hi => ⟨executeWith chip i s, exec_eq i s, ?_, ?_⟩, fun p w v => ⟨?_, ?_⟩,
    fun k => ⟨?_, ?_⟩⟩
  · rw [fetch_eq]
  · exact executeWith_cache_of_ignored chip hi s
  · rw [exec_eq, executeWith_setCache chip hi]
  · rw [memWrite_eq]
  · exact memWrite_setCache p w v s c
  · rw [memRead_eq]
  · exact memRead_setCache k s c

/-! ### Stale entries (20_memory.md R66) -/

theorem State.not_freshAt_of_ne {s : State} {w : Addr} {v : Byte} (hhit : s.cache.lookup w = .hit v)
    (hne : s.mem.get w.toNat ≠ v) : ¬ s.freshAt w :=
  fun hfresh => hne (hfresh v hhit).2

theorem State.not_freshAt_of_outOfRange {s : State} {w : Addr} {v : Byte} (hhit : s.cache.lookup w = .hit v)
    (hw : 2048 ≤ w.toNat) : ¬ s.freshAt w :=
  fun hfresh => Nat.not_lt.2 hw (hfresh v hhit).1

/-- An update of one address keeps the cache coherent if memory holds the same byte there and kept every other. -/
theorem State.coherent_of_update {s t : State} {w : Addr} {v : Byte} (hdist : s.cache.distinct = true)
    (hs : s.coherent) (hcache : t.cache = s.cache.update w v) (hw : w.toNat < 2048) (hv : t.mem.get w.toNat = v)
    (hmem : ∀ k, k ≠ w.toNat → t.mem.get k = s.mem.get k) : t.coherent := by
  intro b x hx
  rw [hcache] at hx
  by_cases hb : b = w
  · rw [hb, Cache.lookup_update_self, Lookup.hit.injEq] at hx
    exact hb ▸ ⟨hw, hv.trans hx⟩
  · rw [Cache.lookup_update_other hdist hb] at hx
    split at hx
    · cases hx
    · rw [hmem b.toNat fun h => hb (BitVec.eq_of_toNat_eq h)]
      exact hs b x hx

/-- With the cache kept and memory changed at one address at most, which is not live, the cache stays coherent. -/
theorem State.coherent_of_cache_eq {s t : State} {w : Addr} (hs : s.coherent) (hcache : t.cache = s.cache)
    (hmiss : s.cache.lookup w = .miss) (hmem : ∀ k, k ≠ w.toNat → t.mem.get k = s.mem.get k) : t.coherent := by
  intro b x hx
  rw [hcache] at hx
  have hb : b ≠ w := fun h => by rw [h, hmiss] at hx; cases hx
  rw [hmem b.toNat fun h => hb (BitVec.eq_of_toNat_eq h)]
  exact hs b x hx

/-- Coherence depends on the cache and memory alone. -/
theorem State.coherent_congr {s t : State} (hs : s.coherent) (hcache : t.cache = s.cache) (hmem : t.mem = s.mem) :
    t.coherent := by
  intro b x hx
  rw [hcache] at hx
  rw [hmem]
  exact hs b x hx

/-- In range a coherent cache gives the operand that memory holds. -/
theorem State.operandValue_of_coherent {s : State} (hs : s.coherent) {w : Addr} (hw : w.toNat < 2048) :
    operandValue s w = s.mem.get w.toNat := by
  unfold operandValue
  split
  · next v hv => exact (hs w v hv).2.symm
  · exact if_pos hw

/-- `t` is `s` after the write-back of `v` at `w`, as far as cache and memory go: what ADC and SBC do
(92_eei_decisions.md D6). -/
def StoresBack (s t : State) (w : Addr) (v : Byte) : Prop :=
  t.cache = s.cache.update w v ∧ t.mem = if seg w = .data then s.mem.set w.toNat v else s.mem

theorem executeWith_adc_storesBack (p : Config.Params) (w : Addr) (s : State) :
    StoresBack s (executeWith p (.adc w) s) w (add8 s.a (operandValue s w) s.flagC) := by
  rw [executeWith, adcOp_eq]
  exact ⟨rfl, rfl⟩

theorem executeWith_sbc_storesBack (p : Config.Params) (w : Addr) (s : State) :
    StoresBack s (executeWith p (.sbc w) s) w (sub8 (operandValue s w) s.a s.flagC) := by
  rw [executeWith, sbcOp_eq]
  exact ⟨rfl, rfl⟩

/-- In the data segment a write-back puts one value into both cache and memory. -/
theorem StoresBack.coherent {s t : State} {w : Addr} {v : Byte} (h : StoresBack s t w v) (hinv : s.inv = true)
    (hs : s.coherent) (hw : 512 ≤ w.toNat ∧ w.toNat < 2048) : t.coherent := by
  obtain ⟨hcache, hmem⟩ := h
  obtain ⟨hwf, hdist, -⟩ := (State.inv_iff s).1 hinv
  have hget : ∀ k, t.mem.get k = if k = w.toNat then v else s.mem.get k := fun k => by
    rw [hmem, if_pos ((seg_eq_data_iff w).2 hw), Memory.get_set_wf hwf]
  exact State.coherent_of_update hdist hs hcache hw.2 ((hget _).trans (if_pos rfl))
    fun k hk => (hget k).trans (if_neg hk)

/-- Below the data segment the port rejects the byte and the cache takes it. -/
theorem StoresBack.not_freshAt {s t : State} {w : Addr} {v : Byte} (h : StoresBack s t w v) (hw : w.toNat < 512)
    (hne : s.mem.get w.toNat ≠ v) : ¬ t.freshAt w := by
  obtain ⟨hcache, hmem⟩ := h
  refine State.not_freshAt_of_ne (by rw [hcache, Cache.lookup_update_self]) ?_
  rwa [hmem, if_neg (by rw [seg_eq_data_iff]; omega)]

/-- LDA and AND leave the operand cached and memory as it was. -/
theorem executeWith_load (p : Config.Params) {i : Instr} {w : Addr} (hi : i = .lda w ∨ i = .and w) (s : State) :
    (executeWith p i s).cache = s.cache.update w (operandValue s w) ∧ (executeWith p i s).mem = s.mem := by
  rcases hi with rfl | rfl
  · rw [executeWith, ldaOp_eq]
    exact ⟨rfl, rfl⟩
  · rw [executeWith, andOp_eq]
    exact ⟨rfl, rfl⟩

theorem executeWith_load_coherent (p : Config.Params) {i : Instr} {w : Addr} (hi : i = .lda w ∨ i = .and w)
    {s : State} (hinv : s.inv = true) (hs : s.coherent) (hw : w.toNat < 2048) : (executeWith p i s).coherent := by
  obtain ⟨hcache, hmem⟩ := executeWith_load p hi s
  obtain ⟨-, hdist, -⟩ := (State.inv_iff s).1 hinv
  refine State.coherent_of_update hdist hs hcache hw ?_ fun k _ => by rw [hmem]
  rw [hmem, State.operandValue_of_coherent hs hw]

theorem executeWith_psh_cache (p : Config.Params) (w : Addr) (s : State) :
    (executeWith p (.psh w) s).cache = s.cache := by
  rw [executeWith, pshOp_eq]

/-- PSH stores A at SP, in the stack segment only. -/
theorem executeWith_psh_get (p : Config.Params) (w : Addr) {s : State} (hwf : s.mem.wf = true) (k : Nat) :
    (executeWith p (.psh w) s).mem.get k = if k = s.sp.toNat ∧ 256 ≤ k ∧ k < 512 then s.a else s.mem.get k := by
  rw [executeWith, pshOp_eq]
  exact get_storeIn s.a hwf (seg_eq_stack_iff s.sp) k

/-- Off the paths of 20_memory.md R66 an instruction keeps a coherent cache coherent. -/
theorem executeWith_coherent (p : Config.Params) (i : Instr) {s : State} (hinv : s.inv = true) (hs : s.coherent)
    (hpush : ∀ w, i = .psh w → s.cache.lookup s.sp = .miss)
    (harith : ∀ w, i = .adc w ∨ i = .sbc w → 512 ≤ w.toNat ∧ w.toNat < 2048)
    (hload : ∀ w, i = .lda w ∨ i = .and w → w.toNat < 2048) : (executeWith p i s).coherent := by
  cases i with
  | adc w => exact (executeWith_adc_storesBack p w s).coherent hinv hs (harith w (.inl rfl))
  | sbc w => exact (executeWith_sbc_storesBack p w s).coherent hinv hs (harith w (.inr rfl))
  | lda w => exact executeWith_load_coherent p (.inl rfl) hinv hs (hload w (.inl rfl))
  | and w => exact executeWith_load_coherent p (.inr rfl) hinv hs (hload w (.inr rfl))
  | psh w =>
    refine State.coherent_of_cache_eq hs (executeWith_psh_cache p w s) (hpush w rfl) fun k hk => ?_
    rw [executeWith_psh_get p w ((State.inv_iff s).1 hinv).1, if_neg fun h => hk h.1]
  | eor w =>
    rw [executeWith, eorOp_eq]
    exact State.coherent_congr hs rfl rfl
  | pop w =>
    rw [executeWith, popOp_eq]
    exact State.coherent_congr hs rfl rfl
  | jmp w => exact State.coherent_congr hs rfl rfl
  | undefined b w => exact State.coherent_congr hs rfl rfl

/-- A push in the stack segment onto a live address writes memory beside the cache. -/
theorem executeWith_psh_not_freshAt (p : Config.Params) (w : Addr) {s : State} (hwf : s.mem.wf = true) {v : Byte}
    (hhit : s.cache.lookup s.sp = .hit v) (hne : v ≠ s.a) (hlo : 256 ≤ s.sp.toNat) (hhi : s.sp.toNat < 512) :
    ¬ (executeWith p (.psh w) s).freshAt s.sp := by
  refine State.not_freshAt_of_ne (by rw [executeWith_psh_cache, hhit]) ?_
  rw [executeWith_psh_get p w hwf, if_pos ⟨rfl, hlo, hhi⟩]
  exact hne.symm

/-- ADC, SBC, LDA and AND leave their address live (40_fetch_execute.md R121). -/
theorem executeWith_leaves_live (p : Config.Params) {i : Instr} {w : Addr}
    (hi : i = .adc w ∨ i = .sbc w ∨ i = .lda w ∨ i = .and w) (s : State) :
    ∃ v, (executeWith p i s).cache.lookup w = .hit v := by
  have hupdate : ∃ v, (executeWith p i s).cache = s.cache.update w v := by
    rcases hi with rfl | rfl | hload
    · exact ⟨_, (executeWith_adc_storesBack p w s).1⟩
    · exact ⟨_, (executeWith_sbc_storesBack p w s).1⟩
    · exact ⟨_, (executeWith_load p hload s).1⟩
  obtain ⟨v, hv⟩ := hupdate
  exact ⟨v, by rw [hv, Cache.lookup_update_self]⟩

/-- Settles O49: coherence is kept by cases on the instruction; on each listed path the entry and memory disagree, or the
entry's address has no memory. -/
theorem staleEntriesComeOnlyFromTheListedPaths : Obligations.StaleEntriesComeOnlyFromTheListedPaths := by
  unfold Obligations.StaleEntriesComeOnlyFromTheListedPaths
  intro p i s hinv
  refine ⟨executeWith_coherent p i hinv, ?_, ?_, ?_, ?_⟩
  · rintro w v rfl
    exact executeWith_psh_not_freshAt p w ((State.inv_iff s).1 hinv).1
  · rintro w rfl
    exact (executeWith_adc_storesBack p w s).not_freshAt
  · rintro w rfl
    exact (executeWith_sbc_storesBack p w s).not_freshAt
  · intro w hi hw
    obtain ⟨v, hv⟩ := executeWith_leaves_live p hi s
    exact State.not_freshAt_of_outOfRange hv hw

end Sys2Proof.Machine

end

/-! # Proofs of the encoding statements (30_encoding.md R90 to R100)

An instruction is an operation with its operand or an undefined opcode byte (`Instr.eq_toInstr_or_undefined`). What the
decoder answers is said once for each of the two and for a refused byte; the round trips, the opcode map and the step's
refusal follow from that. Last, where `withFetchWord` leaves a word and that the next fetch reads it. -/

section

namespace Sys2Proof

/-! ### The two kinds of instruction -/

theorem Instr.eq_toInstr_or_undefined (i : Instr) :
    (∃ op w, i = Op.toInstr op w) ∨ ∃ b w, i = .undefined b w := by
  cases i with
  | adc w => exact .inl ⟨.adc, w, rfl⟩
  | sbc w => exact .inl ⟨.sbc, w, rfl⟩
  | lda w => exact .inl ⟨.lda, w, rfl⟩
  | and w => exact .inl ⟨.and, w, rfl⟩
  | eor w => exact .inl ⟨.eor, w, rfl⟩
  | jmp w => exact .inl ⟨.jmp, w, rfl⟩
  | psh w => exact .inl ⟨.psh, w, rfl⟩
  | pop w => exact .inl ⟨.pop, w, rfl⟩
  | undefined b w => exact .inr ⟨b, w, rfl⟩

@[simp] theorem operandField_toInstr (op : Op) (w : Addr) : operandField (op.toInstr w) = w := by
  cases op <;> rfl

@[simp] theorem wellFormed_toInstr (m : Config.OpcodeDecode) (op : Op) (w : Addr) :
    (op.toInstr w).wellFormed m = true := by
  cases op <;> rfl

/-- The opcode map read backwards (30_encoding.md R94). -/
theorem opOf_opcodeByte (op : Op) (w : Addr) : opOf (opcodeByte (op.toInstr w)).toNat = some op := by
  cases op <;> rfl

theorem opcodeByte_toInstr_le (op : Op) (w : Addr) : (opcodeByte (op.toInstr w)).toNat ≤ 7 := by
  cases op <;> simp [Op.toInstr, opcodeByte]

theorem opcodeByte_toNat_of_opOf {n : Nat} {op : Op} (h : opOf n = some op) (w : Addr) :
    (opcodeByte (op.toInstr w)).toNat = n := by
  have hn : n < 8 := by
    by_contra hge
    simp [opOf_eq_none (Nat.not_lt.1 hge)] at h
  interval_cases n <;> cases h <;> rfl

/-! ### The opcode field under each setting (30_encoding.md R93) -/

theorem lowNibble_toNat (b0 : Byte) : (b0.extractLsb' 0 4).toNat = b0.toNat % 16 := by
  simp

theorem highNibble_eq_zero_iff (b0 : Byte) : b0.extractLsb' 4 4 = 0#4 ↔ b0.toNat ≤ 15 := by
  have hlt := b0.isLt
  rw [← BitVec.toNat_inj, BitVec.extractLsb'_toNat, Nat.shiftRight_eq_div_pow]
  simp only [BitVec.toNat_ofNat]
  omega

theorem opcodeField_lowNibble (b0 : Byte) : opcodeField .lowNibble b0 = .ok (b0.toNat % 16) := by
  rw [opcodeField, lowNibble_toNat]

theorem opcodeField_refuseHigh_of_high {b0 : Byte} (h : 15 < b0.toNat) :
    opcodeField .refuseHigh b0 = .error (.refusedOpcode b0) :=
  if_neg fun hz => Nat.not_lt.2 ((highNibble_eq_zero_iff b0).1 hz) h

/-- Below 0x10 the settings agree. -/
theorem opcodeField_of_low (m : Config.OpcodeDecode) {b0 : Byte} (h : b0.toNat ≤ 15) :
    opcodeField m b0 = .ok b0.toNat := by
  have hmod : b0.toNat % 16 = b0.toNat := Nat.mod_eq_of_lt (Nat.lt_succ_of_le h)
  cases m with
  | fullByte => rfl
  | lowNibble => rw [opcodeField_lowNibble, hmod]
  | refuseHigh => rw [opcodeField, if_pos ((highNibble_eq_zero_iff b0).2 h), lowNibble_toNat, hmod]

theorem undefinedByte_fullByte_iff (b0 : Byte) : undefinedByte .fullByte b0 = true ↔ 8 ≤ b0.toNat := decide_eq_true_iff

theorem undefinedByte_lowNibble_iff (b0 : Byte) : undefinedByte .lowNibble b0 = true ↔ 8 ≤ b0.toNat % 16 :=
  decide_eq_true_iff

theorem undefinedByte_refuseHigh_iff (b0 : Byte) :
    undefinedByte .refuseHigh b0 = true ↔ 8 ≤ b0.toNat ∧ b0.toNat < 16 := decide_eq_true_iff

theorem undefinedByte_of_range (m : Config.OpcodeDecode) {b0 : Byte} (hlo : 8 ≤ b0.toNat) (hhi : b0.toNat ≤ 15) :
    undefinedByte m b0 = true := by
  cases m with
  | fullByte => exact (undefinedByte_fullByte_iff b0).2 hlo
  | lowNibble => exact (undefinedByte_lowNibble_iff b0).2 (by omega)
  | refuseHigh => exact (undefinedByte_refuseHigh_iff b0).2 ⟨hlo, by omega⟩

/-- The bytes `undefinedByte` lists are those whose opcode field has no operation. -/
theorem opcodeField_of_undefinedByte {m : Config.OpcodeDecode} {b0 : Byte} (h : undefinedByte m b0 = true) :
    ∃ n, opcodeField m b0 = .ok n ∧ 8 ≤ n := by
  cases m with
  | fullByte => exact ⟨_, rfl, (undefinedByte_fullByte_iff b0).1 h⟩
  | lowNibble => exact ⟨_, opcodeField_lowNibble b0, (undefinedByte_lowNibble_iff b0).1 h⟩
  | refuseHigh =>
    obtain ⟨hlo, hhi⟩ := (undefinedByte_refuseHigh_iff b0).1 h
    exact ⟨_, opcodeField_of_low _ (Nat.le_of_lt_succ hhi), hlo⟩

/-! ### What three bytes decode to -/

theorem decodeBytes_of_opOf {m : Config.OpcodeDecode} {b0 : Byte} {n : Nat} {op : Op} (hn : opcodeField m b0 = .ok n)
    (hop : opOf n = some op) (b1 b2 : Byte) : decodeBytes m b0 b1 b2 = .ok (op.toInstr (operandOf b1 b2)) := by
  simp only [decodeBytes, hn, hop]

theorem decodeBytes_of_undefinedByte {m : Config.OpcodeDecode} {b0 : Byte} (h : undefinedByte m b0 = true)
    (b1 b2 : Byte) : decodeBytes m b0 b1 b2 = .ok (.undefined b0 (operandOf b1 b2)) := by
  obtain ⟨n, hn, hge⟩ := opcodeField_of_undefinedByte h
  simp only [decodeBytes, hn, opOf_eq_none hge]

theorem decodeBytes_refuseHigh_of_high {b0 : Byte} (h : 15 < b0.toNat) (b1 b2 : Byte) :
    decodeBytes .refuseHigh b0 b1 b2 = .error (.refusedOpcode b0) := by
  simp only [decodeBytes, opcodeField_refuseHigh_of_high h]

/-- A field value with an operation decodes to that operation. -/
theorem decodeBytes_of_field_le {m : Config.OpcodeDecode} {b0 : Byte} {n : Nat} (hn : opcodeField m b0 = .ok n)
    (hle : n ≤ 7) (b1 b2 : Byte) :
    ∃ op, opOf n = some op ∧ decodeBytes m b0 b1 b2 = .ok (op.toInstr (operandOf b1 b2)) := by
  obtain ⟨op, hop⟩ := opOf_eq_some hle
  exact ⟨op, hop, decodeBytes_of_opOf hn hop b1 b2⟩

/-- Under every setting an operation's own opcode byte decodes to it (30_encoding.md R94). -/
theorem decodeBytes_opcodeByte (m : Config.OpcodeDecode) (op : Op) (w : Addr) (b1 b2 : Byte) :
    decodeBytes m (opcodeByte (op.toInstr w)) b1 b2 = .ok (op.toInstr (operandOf b1 b2)) :=
  decodeBytes_of_opOf (opcodeField_of_low m ((opcodeByte_toInstr_le op w).trans (by decide))) (opOf_opcodeByte op w) b1 b2

theorem decode_cons {m : Config.OpcodeDecode} {b0 b1 b2 : Byte} {i : Instr} (h : decodeBytes m b0 b1 b2 = .ok i)
    (rest : List Byte) : decode m (b0 :: b1 :: b2 :: rest) = .ok (i, rest) := by
  simp only [decode, h]

/-! ### The round trips (30_encoding.md R91 to R99) -/

theorem decodeBytes_encode {m : Config.OpcodeDecode} {i : Instr} (h : i.wellFormed m = true) :
    decodeBytes m (opcodeByte i) ((operandField i).extractLsb' 8 8) ((operandField i).extractLsb' 0 8) = .ok i := by
  rcases i.eq_toInstr_or_undefined with ⟨op, w, rfl⟩ | ⟨b, w, rfl⟩
  · rw [decodeBytes_opcodeByte, operandOf_bytes, operandField_toInstr]
  · exact (decodeBytes_of_undefinedByte h _ _).trans (by rw [operandOf_bytes]; rfl)

theorem decode_encode {m : Config.OpcodeDecode} {i : Instr} (h : i.wellFormed m = true) (rest : List Byte) :
    decode m (encode i ++ rest) = .ok (i, rest) := decode_cons (decodeBytes_encode h) rest

/-- Settles O1: the opcode byte selects the constructor again, and the operand's two bytes give it back. -/
theorem decodeOfEncodeIsIdentity : Obligations.DecodeOfEncodeIsIdentity := by
  unfold Obligations.DecodeOfEncodeIsIdentity
  exact fun m i rest h => decode_encode h rest

/-- With the whole byte as opcode, some well-formed instruction is encoded by any three bytes. -/
theorem exists_encode_eq (b0 b1 b2 : Byte) : ∃ i : Instr, i.wellFormed .fullByte = true ∧ encode i = [b0, b1, b2] := by
  by_cases h : b0.toNat ≤ 7
  · obtain ⟨op, hop⟩ := opOf_eq_some h
    have hbyte : opcodeByte (op.toInstr (operandOf b1 b2)) = b0 :=
      BitVec.eq_of_toNat_eq (opcodeByte_toNat_of_opOf hop _)
    exact ⟨op.toInstr (operandOf b1 b2), wellFormed_toInstr _ _ _, by simp [encode, hbyte]⟩
  · exact ⟨.undefined b0 (operandOf b1 b2), (undefinedByte_fullByte_iff b0).2 (Nat.lt_of_not_le h),
      by simp [encode, opcodeByte, operandField]⟩

/-- Settles O2: an encoding exists, and decoding, which undoes the encoder, gives its meaning and that it is the only
one. -/
theorem everyWordHasExactlyOneMeaning : Obligations.EveryWordHasExactlyOneMeaning := by
  unfold Obligations.EveryWordHasExactlyOneMeaning
  intro w
  obtain ⟨i, hi, henc⟩ : ∃ i : Instr, i.wellFormed .fullByte = true ∧ encode i = wordBytes w := exists_encode_eq _ _ _
  have hdecode : ∀ j : Instr, j.wellFormed .fullByte = true → encode j = wordBytes w →
      decode .fullByte (wordBytes w) = .ok (j, []) := fun j hj hencj => by
    rw [← hencj, ← List.append_nil (encode j), decode_encode hj]
  refine ⟨i, hdecode i hi henc, hi, henc, fun j hj hencj => ?_⟩
  have hsame : Except.ok (ε := DecodeRefusal) (j, ([] : List Byte)) = .ok (i, []) :=
    (hdecode j hj hencj).symm.trans (hdecode i hi henc)
  simpa using hsame

/-! ### The opcode map (30_encoding.md R92 to R94, R100) -/

/-- Settles O3: each operation's own byte, and the undefined bytes, with the two operand bytes side by side. -/
theorem opcodeMapAndBigEndianOperand : Obligations.OpcodeMapAndBigEndianOperand := by
  unfold Obligations.OpcodeMapAndBigEndianOperand
  intro m b1 b2
  have hmap : ∀ op : Op, decodeBytes m (opcodeByte (op.toInstr 0#16)) b1 b2 = .ok (op.toInstr (operandOf b1 b2)) :=
    fun op => decodeBytes_opcodeByte m op 0#16 b1 b2
  refine ⟨operandOf b1 b2, operandOf_toNat b1 b2, hmap .adc, hmap .sbc, hmap .lda, hmap .and, hmap .eor, hmap .jmp,
    hmap .psh, hmap .pop, fun b0 hlo hhi => ?_, fun b0 hhi => ?_⟩
  · exact decodeBytes_of_undefinedByte (undefinedByte_of_range m hlo hhi) b1 b2
  · exact decodeBytes_of_undefinedByte ((undefinedByte_fullByte_iff b0).2 (by omega)) b1 b2

/-- Settles O4: each setting's opcode field, and what its value decodes to. -/
theorem opcodeByteUnderEachSetting : Obligations.OpcodeByteUnderEachSetting := by
  unfold Obligations.OpcodeByteUnderEachSetting
  intro b0 b1 b2
  refine ⟨fun h => decodeBytes_of_field_le rfl h b1 b2,
    fun h => decodeBytes_of_undefinedByte ((undefinedByte_fullByte_iff b0).2 h) b1 b2,
    fun h => decodeBytes_of_field_le (opcodeField_lowNibble b0) h b1 b2,
    fun h => decodeBytes_of_undefinedByte ((undefinedByte_lowNibble_iff b0).2 h) b1 b2,
    fun h => decodeBytes_refuseHigh_of_high h b1 b2, fun h m m' => ?_, ?_⟩
  · simp only [decodeBytes, opcodeField_of_low _ h]
  · rintro rfl
    exact ⟨decodeBytes_of_undefinedByte (by decide) b1 b2, decodeBytes_of_undefinedByte (by decide) b1 b2,
      decodeBytes_refuseHigh_of_high (by decide) b1 b2⟩

/-- A word of the table decodes as its three bytes do, the opcode byte in bits 23 to 16 (log entry 9). -/
theorem decodeTableWord_eq_some_iff {nbits w : Nat} {i : Instr} : decodeTableWord nbits w = some i ↔
    decodeBytes chip.opcodeDecode ((tableWord nbits w).extractLsb' 16 8) ((tableWord nbits w).extractLsb' 8 8)
      ((tableWord nbits w).extractLsb' 0 8) = .ok i := by
  simp only [decodeTableWord, wordBytes, decode]
  cases decodeBytes chip.opcodeDecode ((tableWord nbits w).extractLsb' 16 8) ((tableWord nbits w).extractLsb' 8 8)
    ((tableWord nbits w).extractLsb' 0 8) <;> simp

/-- Settles O5: the decoder evaluated on the seven words. -/
theorem encodingExamplesDecode : Obligations.EncodingExamplesDecode := by
  unfold Obligations.EncodingExamplesDecode
  decide

end Sys2Proof

namespace Sys2Proof.Machine

/-! ### The refused step (30_encoding.md R93, 40_fetch_execute.md R112) -/

theorem stepWith_of_refused {p : Config.Params} {s : State} {bound : Addr} {r : DecodeRefusal}
    (hp : s.phase = .running bound) (hlt : s.pc < bound) (hr : fetchedInstr p.opcodeDecode s = .error r) :
    stepWith p s = .refused (.refusedOpcode (readValue s.mem s.pc.toNat)) := by
  simp only [stepWith_eq, hp, hlt, if_true, hr]

/-- Settles O39: the fetched byte is refused by the decoder, so the step is. -/
theorem refuseHighRefusesTheStep : Obligations.RefuseHighRefusesTheStep := by
  unfold Obligations.RefuseHighRefusesTheStep
  intro p s bound hm hp hlt hhigh
  have hrefused : fetchedInstr p.opcodeDecode s = .error (.refusedOpcode (readValue s.mem s.pc.toNat)) := by
    rw [hm]
    exact decodeBytes_refuseHigh_of_high hhigh _ _
  exact stepWith_of_refused hp hlt hrefused

/-! ### A placed word (log entry 5) -/

/-- Loading bytes that lie in memory stores them in order from `w` on and changes nothing but memory. -/
theorem loadBytes_inRange {w : Addr} {bytes : List Byte} {s : State} (hwf : s.mem.wf = true)
    (hw : w.toNat + bytes.length ≤ 2048) :
    ∃ mem : Memory, loadBytes w bytes s = { s with mem := mem } ∧
      (∀ k, k < w.toNat → mem.get k = s.mem.get k) ∧
      ∀ (j : Nat) (hj : j < bytes.length), mem.get (w.toNat + j) = bytes[j] := by
  induction bytes generalizing w s with
  | nil => exact ⟨s.mem, rfl, fun _ _ => rfl, fun j hj => absurd hj (Nat.not_lt_zero j)⟩
  | cons b rest ih =>
    rw [List.length_cons] at hw
    have hin : w.toNat < 2048 := by omega
    have hnext : (w + 1#16).toNat = w.toNat + 1 := by
      rw [BitVec.toNat_add]
      exact Nat.mod_eq_of_lt (show w.toNat + 1 < 65536 by omega)
    obtain ⟨mem, hload, hbelow, hget⟩ := ih (w := w + 1#16) (s := { s with mem := s.mem.set w.toNat b })
      (Memory.wf_set hwf hin) (by omega)
    refine ⟨mem, by rw [loadBytes, memWrite_loadPort hin, hload], fun k hk => ?_, fun j hj => ?_⟩
    · rw [hbelow k (by omega), Memory.get_set_wf hwf, if_neg (by omega)]
    · cases j with
      | zero => simp [hbelow w.toNat (by omega), Memory.get_set_wf hwf]
      | succ j =>
        have hrest := hget j (by simpa using hj)
        rwa [hnext, Nat.add_right_comm] at hrest

/-- Where a placed word lies: at PC, inside memory, with a run past PC in progress; nothing else is changed. -/
theorem placeWord_eq {s : State} (hwf : s.mem.wf = true) (w : BitVec 24) : ∃ (pc bound : Addr) (mem : Memory),
    placeWord s w = { s with pc := pc, mem := mem, phase := .running bound } ∧ pc.toNat + 3 ≤ 2048 ∧ pc < bound ∧
    ∀ (j : Nat) (hj : j < (wordBytes w).length), mem.get (pc.toNat + j) = (wordBytes w)[j] := by
  obtain ⟨pc, hstart, hpc⟩ : ∃ pc : Addr, (if s.pc.toNat + 3 ≤ Config.memSize then s else s.setPc 0#16) =
      { s with pc := pc } ∧ pc.toNat + 3 ≤ 2048 := by
    by_cases h : s.pc.toNat + 3 ≤ Config.memSize
    · exact ⟨s.pc, if_pos h, h⟩
    · exact ⟨0#16, if_neg h, by decide⟩
  obtain ⟨mem, hload, -, hget⟩ := loadBytes_inRange (w := pc) (bytes := wordBytes w) (s := { s with pc := pc }) hwf hpc
  have hadvance : pc < pc + Config.instrLen := by
    unfold Config.instrLen
    bv_omega
  obtain ⟨bound, hlt, hplaced⟩ : ∃ bound : Addr, pc < bound ∧
      placeWord s w = { s with pc := pc, mem := mem, phase := .running bound } := by
    simp only [placeWord, hstart, hload]
    cases s.phase with
    | idle => exact ⟨_, hadvance, rfl⟩
    | running bound =>
      by_cases hb : pc < bound
      · exact ⟨bound, hb, by simp only [if_pos hb]⟩
      · exact ⟨_, hadvance, if_neg hb⟩
  exact ⟨pc, bound, mem, hplaced, hpc, hlt, hget⟩

theorem readValue_inRange (m : Memory) {k : Nat} (h : k < 2048) : readValue m k = m.get k := if_pos h

/-- Settles O50: the fetch reads the placed word's three bytes, in range and so with no report. -/
theorem placedWordRunsNext : Obligations.PlacedWordRunsNext := by
  unfold Obligations.PlacedWordRunsNext
  intro s w i hwf hi
  obtain ⟨pc, bound, mem, hplaced, hpc, hlt, hget⟩ := placeWord_eq hwf (tableWord 24 w)
  rw [State.withFetchWord, hplaced]
  refine ⟨_, exec_eq i _, ?_, rfl, rfl, rfl, rfl, rfl⟩
  have hread : ∀ (j : Nat) (hj : j < 3), readValue mem (pc.toNat + j) = (wordBytes (tableWord 24 w))[j] :=
    fun j hj => (readValue_inRange mem (by omega)).trans (hget j hj)
  have hdecoded : fetchedInstr chip.opcodeDecode { s with pc := pc, mem := mem, phase := .running bound } = .ok i := by
    simp only [fetchedInstr, hread 1 (by decide), hread 2 (by decide),
      show readValue mem pc.toNat = _ from hread 0 (by decide)]
    exact decodeTableWord_eq_some_iff.1 hi
  rw [step_of_decoded rfl hlt hdecoded, State.fetched, fetchReports_inRange (by exact hpc), List.append_nil]
  rfl

end Sys2Proof.Machine

end

/-! # Proofs of the statements about fetch and execute (40_fetch_execute.md R110 to R123)

First the loop: what a step is in each phase, and that a run goes on exactly while PC is below its bound. Then the host's
commands, each as the state it leaves. Then the flags, where overflow and carry are facts about exact sums, and last what
an instruction does to the cache. -/

section

namespace Sys2Proof.Machine

/-! ### The loop (40_fetch_execute.md R112, R113) -/

theorem step_of_idle {s : State} (h : s.phase = .idle) : step s = .next s := by
  rw [step_eq_stepWith, stepWith_of_idle h]

theorem step_of_not_lt {s : State} {bound : Addr} (hp : s.phase = .running bound) (hge : ¬ s.pc < bound) :
    step s = .next { s with phase := .idle } := by
  rw [step_eq_stepWith, stepWith_of_not_lt hp hge]

/-- Below the bound every fetched word has a meaning at the default `opcode_decode`, and no instruction ends the run. -/
theorem step_of_lt {s : State} {bound : Addr} (hp : s.phase = .running bound) (hlt : s.pc < bound) :
    ∃ t : State, step s = .next t ∧ t.phase = .running bound := by
  obtain ⟨i, hi⟩ : ∃ i, fetchedInstr chip.opcodeDecode s = .ok i := decodeBytes_ok (by decide) _ _ _
  exact ⟨_, step_of_decoded hp hlt hi, (executeWith_phase chip i s.fetched).trans hp⟩

/-- RUN in Idle, as the state it leaves (40_fetch_execute.md R111). -/
theorem hostCommand_run {s : State} (h : s.phase = .idle) (start bound : Addr) :
    hostCommand (.run start bound) s = .next ({ s with pc := start, phase := .running bound }, .done) :=
  hostCommand_of_idle h _

/-- As long as each earlier state has PC below the bound, the run is still in progress. -/
theorem run_of_forall_lt {s : State} {bound : Addr} {k : Nat} (hp : s.phase = .running bound)
    (hlt : ∀ j, j < k → ∀ u : State, Sys2Proof.core.run j s = .next u → u.pc < bound) :
    ∃ t : State, Sys2Proof.core.run k s = .next t ∧ t.phase = .running bound := by
  induction k generalizing s with
  | zero => exact ⟨s, rfl, hp⟩
  | succ k ih =>
    obtain ⟨u, hstep, hu⟩ := step_of_lt hp (hlt 0 k.succ_pos s rfl)
    obtain ⟨t, hrun, ht⟩ := ih hu fun j hj v hv => hlt (j + 1) (Nat.succ_lt_succ hj) v ((run_succ hstep j).trans hv)
    exact ⟨t, (run_succ hstep k).trans hrun, ht⟩

/-- Settles O36: one step at the bound, one below it, and an induction on the number of steps below it. -/
theorem runEndsExactlyAtTheBound : Obligations.RunEndsExactlyAtTheBound := by
  unfold Obligations.RunEndsExactlyAtTheBound
  refine ⟨fun s bound => step_of_not_lt, fun s start bound hidle hge => ?_, fun s bound => step_of_lt,
    fun s bound k => run_of_forall_lt⟩
  refine ⟨_, hostCommand_run hidle start bound, (step_of_not_lt rfl hge).trans ?_⟩
  rw [← hidle]

/-- Settles O35: `exec` is total, so its answer on the fetched state is the one the step advances. -/
theorem stepRunsTheDecodedInstruction : Obligations.StepRunsTheDecodedInstruction := by
  unfold Obligations.StepRunsTheDecodedInstruction
  intro s t bound i hp hlt hi hexec
  obtain rfl : executeWith chip i s.fetched = t := Host.Outcome.next.inj ((exec_eq i s.fetched).symm.trans hexec)
  exact ⟨step_of_decoded hp hlt hi, fetchReports_inRange⟩

/-- Settles O37: the step's case for Idle. -/
theorem idleStepChangesNothing : Obligations.IdleStepChangesNothing := by
  unfold Obligations.IdleStepChangesNothing
  exact fun s => step_of_idle

/-! ### The host's commands (40_fetch_execute.md R110, R111, R116) -/

/-- Settles O7: the state RUN leaves, field by field. -/
theorem runSetsPcAndPhaseOnly : Obligations.RunSetsPcAndPhaseOnly := by
  unfold Obligations.RunSetsPcAndPhaseOnly
  exact fun s start bound h => ⟨_, hostCommand_run h start bound, rfl, rfl, rfl, rfl, rfl, rfl, rfl, rfl⟩

/-- EXEC in Idle, as the state it leaves: the operation's effect and nothing of the loop's. -/
theorem hostCommand_exec {s : State} (h : s.phase = .idle) (op : Op) (w : Addr) :
    hostCommand (.exec op w) s = .next (executeWith chip (op.toInstr w) s, .done) := by
  rw [hostCommand_of_idle h]
  simp only [hostAction, exec_eq]

theorem toInstr_eq_jmp_iff {op : Op} {w target : Addr} : op.toInstr w = .jmp target ↔ op = .jmp ∧ w = target := by
  cases op <;> simp [Op.toInstr]

theorem executeWith_pc_of_ne_jmp (p : Config.Params) {i : Instr} (hi : ∀ w, i ≠ .jmp w) (s : State) :
    (executeWith p i s).pc = s.pc := by
  by_contra h
  exact (jmp_of_pc_changed h).elim hi

/-- PSH and POP are the same operation whatever their operand (30_encoding.md R96). -/
theorem executeWith_stackOp (p : Config.Params) {op : Op} (h : op = .psh ∨ op = .pop) (w w' : Addr) (s : State) :
    executeWith p (op.toInstr w) s = executeWith p (op.toInstr w') s := by
  rcases h with rfl | rfl <;> rfl

/-- Settles O8: EXEC leaves the operation's effect, and of the operations only JMP writes PC. -/
theorem execPortPerformsOneOperation : Obligations.ExecPortPerformsOneOperation := by
  unfold Obligations.ExecPortPerformsOneOperation
  intro s op addr hidle
  refine ⟨_, hostCommand_exec hidle op addr, exec_eq _ s, (executeWith_phase chip _ s).trans hidle, ?_, fun hop => ?_,
    fun hop other => ?_⟩
  · rintro rfl
    exact jmpOp_eq addr s
  · exact executeWith_pc_of_ne_jmp chip (fun w hw => hop (toInstr_eq_jmp_iff.1 hw).1) s
  · rw [hostCommand_exec hidle, executeWith_stackOp chip hop]

/-- `hostCommand` is `hostCommandWith` at the machine's parameters. -/
theorem hostCommand_eq_hostCommandWith (c : HostCommand) (s : State) : hostCommand c s = hostCommandWith chip c s := by
  have h : exec = fun i t => .next (executeWith chip i t) := funext₂ exec_eq
  rw [hostCommand, hostCommandWith, h]

/-- In Idle every command is answered (40_fetch_execute.md R110). -/
theorem hostCommand_answered {s : State} (h : s.phase = .idle) (c : HostCommand) :
    ∃ r : HostReply, hostCommand c s = .next (hostAfter chip s c, r) := by
  cases c with
  | exec op w => exact ⟨_, hostCommand_exec h op w⟩
  | _ => exact ⟨_, hostCommand_of_idle h _⟩

theorem hostCommand_of_running {s : State} {bound : Addr} (h : s.phase = .running bound) {c : HostCommand}
    (hc : c ≠ .reset) : hostCommand c s = .refused .hostCommandWhileRunning := by
  simp [hostCommand, hostCommandBy, State.isRunning, h, hc]

/-- Without RESET, RUN and EXEC the commands are the ports and `observe`, which write memory and the log only. -/
theorem hostCommand_port_writes {s t : State} {c : HostCommand} {r : HostReply} (h : hostCommand c s = .next (t, r))
    (hreset : c ≠ .reset) (hrun : ∀ start bound, c ≠ .run start bound) (hexec : ∀ op w, c ≠ .exec op w) :
    ∃ mem log, t = { s with mem := mem, log := log } := by
  rw [hostCommand_eq_hostCommandWith] at h
  rcases hostCommandWith_cases h with
    ⟨hc, -⟩ | ⟨start, bound, hc, -⟩ | ⟨op, w, hc, -⟩ | ⟨w, -, rfl⟩ | ⟨q, w, v, -, rfl⟩ | ⟨-, rfl⟩
  · exact absurd hc hreset
  · exact absurd hc (hrun start bound)
  · exact absurd hc (hexec op w)
  · exact ⟨_, _, rfl⟩
  · exact ⟨_, _, by rw [memWrite_eq]⟩
  · exact ⟨_, _, rfl⟩

/-- Settles O9: the answer in Idle, the refusal in a run, and what the ports can write. -/
theorem hostCommandsAreAcceptedWhenIdle : Obligations.HostCommandsAreAcceptedWhenIdle := by
  unfold Obligations.HostCommandsAreAcceptedWhenIdle
  intro s c
  refine ⟨fun hidle => ?_, fun bound hp hc => hostCommand_of_running hp hc, fun hidle => hostCommand_of_idle hidle _,
    fun t r h hreset hrun hexec => ?_⟩
  · obtain ⟨r, hr⟩ := hostCommand_answered hidle c
    exact ⟨_, hr⟩
  · obtain ⟨mem, log, rfl⟩ := hostCommand_port_writes h hreset hrun hexec
    exact ⟨rfl, rfl, rfl, rfl, rfl, rfl⟩

/-! ### Which bits of STATUS an instruction writes (40_fetch_execute.md R120) -/

theorem writeNZ_changed {st r : Byte} {j : Nat} (h : (writeNZ st r).getLsbD j ≠ st.getLsbD j) : j = 0 ∨ j = 5 := by
  by_contra hj
  obtain ⟨h0, h5⟩ := not_or.1 hj
  exact h ((getLsbD_writeNZ st r j).trans ((if_neg h0).trans (if_neg h5)))

theorem writeNOZC_changed {st r : Byte} {o c : Bool} {j : Nat}
    (h : (writeNOZC st r o c).getLsbD j ≠ st.getLsbD j) : (j = 0 ∨ j = 5) ∨ j = 1 ∨ j = 6 := by
  by_contra hj
  obtain ⟨h05, h16⟩ := not_or.1 hj
  obtain ⟨h0, h5⟩ := not_or.1 h05
  obtain ⟨h1, h6⟩ := not_or.1 h16
  exact h ((getLsbD_writeNOZC st r o c j).trans
    ((if_neg h0).trans ((if_neg h1).trans ((if_neg h5).trans (if_neg h6)))))

/-- ADC and SBC write N, O, Z and C, AND and EOR write N and Z, and no other instruction writes STATUS. -/
theorem flagWriter_of_status_changed {p : Config.Params} {i : Instr} {s : State} {j : Nat}
    (h : (executeWith p i s).status.getLsbD j ≠ s.status.getLsbD j) :
    (j = 0 ∨ j = 5) ∧ (∃ w, i = .adc w ∨ i = .sbc w ∨ i = .and w ∨ i = .eor w) ∨
    (j = 1 ∨ j = 6) ∧ (∃ w, i = .adc w ∨ i = .sbc w) := by
  cases i with
  | adc w =>
    rw [executeWith, adcOp_eq] at h
    exact (writeNOZC_changed h).imp (⟨·, w, .inl rfl⟩) (⟨·, w, .inl rfl⟩)
  | sbc w =>
    rw [executeWith, sbcOp_eq] at h
    exact (writeNOZC_changed h).imp (⟨·, w, .inr (.inl rfl)⟩) (⟨·, w, .inr rfl⟩)
  | and w =>
    rw [executeWith, andOp_eq] at h
    exact .inl ⟨writeNZ_changed h, w, .inr (.inr (.inl rfl))⟩
  | eor w =>
    rw [executeWith, eorOp_eq] at h
    exact .inl ⟨writeNZ_changed h, w, .inr (.inr (.inr rfl))⟩
  | _ => simp [executeWith, ldaOp_eq, jmpOp_eq, pshOp_eq, popOp_eq, undefinedOp_eq] at h

/-- Settles O27: the bits that may change by cases on the instruction; none of them is reserved. -/
theorem flagWritesTouchOnlyTheirBits : Obligations.FlagWritesTouchOnlyTheirBits := by
  unfold Obligations.FlagWritesTouchOnlyTheirBits
  exact fun p i s j => ⟨flagWriter_of_status_changed, executeWith_reserved p i s⟩

/-! ### C and O after ADC and SBC (40_fetch_execute.md R117 to R119) -/

theorem executeWith_adc_flagC (p : Config.Params) (w : Addr) (s : State) :
    (executeWith p (.adc w) s).flagC = cAdc p.carryMode s.a (operandValue s w) s.flagC := by
  rw [executeWith, adcOp_eq]
  exact writeNOZC_bitC _ _ _ _

theorem executeWith_sbc_flagC (p : Config.Params) (w : Addr) (s : State) :
    (executeWith p (.sbc w) s).flagC = cSbc p.carryMode (operandValue s w) s.a s.flagC := by
  rw [executeWith, sbcOp_eq]
  exact writeNOZC_bitC _ _ _ _

theorem executeWith_adc_flagO (p : Config.Params) (w : Addr) (s : State) : (executeWith p (.adc w) s).flagO =
    oAdd s.a (operandValue s w) (add8 s.a (operandValue s w) s.flagC) := by
  rw [executeWith, adcOp_eq]
  exact writeNOZC_bitO _ _ _ _

theorem executeWith_sbc_flagO (p : Config.Params) (w : Addr) (s : State) : (executeWith p (.sbc w) s).flagO =
    oSbc p.sbcOMode (operandValue s w) s.a (sub8 (operandValue s w) s.a s.flagC) := by
  rw [executeWith, sbcOp_eq]
  exact writeNOZC_bitO _ _ _ _

theorem cAdc_wide_iff (x v : Byte) (cin : Bool) :
    cAdc .wide x v cin = true ↔ x.toNat + v.toNat + cin.toNat > 255 := decide_eq_true_iff

theorem cSbc_wide_iff (v x : Byte) (bin : Bool) :
    cSbc .wide v x bin = true ↔ (v.toNat : Int) - x.toNat - bin.toNat < 0 := decide_eq_true_iff

/-- The exact difference of two bytes and a borrow is negative exactly when bit 8 of its 9-bit form is set. -/
theorem diff_neg_iff (v x : Byte) (bin : Bool) : (v.toNat : Int) - x.toNat - bin.toNat < 0 ↔
    ((v.toNat : Int) - x.toNat - bin.toNat) % 512 > 255 := by
  have hv := v.isLt
  have hx := x.isLt
  have hbin := bin.toNat_le
  omega

/-- Settles O28: the carry functions under each mode. -/
theorem carryUnderEachMode : Obligations.CarryUnderEachMode := by
  unfold Obligations.CarryUnderEachMode
  rintro p addr s v diff rfl rfl
  rw [executeWith_adc_flagC, executeWith_sbc_flagC]
  refine ⟨fun hp => ?_, fun hp => ?_⟩
  · rw [hp]
    exact ⟨rfl, rfl⟩
  · rw [hp]
    exact ⟨cAdc_wide_iff _ _ _, cSbc_wide_iff _ _ _, (cSbc_wide_iff _ _ _).trans (diff_neg_iff _ _ _)⟩

/-- The signed value of a byte (00_scope.md R7). -/
theorem toInt_byte (x : Byte) : x.toInt = if x.toNat < 128 then (x.toNat : Int) else x.toNat - 256 := by
  rw [BitVec.toInt_eq_toNat_cond]
  omega

theorem msb_byte (x : Byte) : x.msb = x.getLsbD 7 := BitVec.msb_eq_getLsbD_last x

theorem add8_toNat (x v : Byte) (cin : Bool) : (add8 x v cin).toNat = (x.toNat + v.toNat + cin.toNat) % 256 :=
  BitVec.toNat_ofNat _ _

theorem sub8_toNat (v x : Byte) (bin : Bool) :
    ((sub8 v x bin).toNat : Int) = ((v.toNat : Int) - x.toNat - bin.toNat) % 256 := by
  rw [sub8, BitVec.toNat_ofInt]
  omega

/-- ADC's expression on the sum of bytes is signed overflow: operands of different signs have a sum in range, and a sum
of two of one sign is in range exactly when it keeps the sign. -/
theorem oAdd_add8_iff (x v : Byte) (cin : Bool) : oAdd x v (add8 x v cin) = true ↔
    x.toInt + v.toInt + cin.toNat < -128 ∨ 127 < x.toInt + v.toInt + cin.toNat := by
  have hx := x.isLt
  have hv := v.isLt
  have hcin := cin.toNat_le
  rw [oAdd_iff, add8_toNat, toInt_byte, toInt_byte]
  omega

/-- Settles O30: ADC's expression for its own result. -/
theorem adcOverflowIsSignedOverflow : Obligations.AdcOverflowIsSignedOverflow := by
  unfold Obligations.AdcOverflowIsSignedOverflow
  intro p addr s
  rw [executeWith_adc_flagO]
  exact oAdd_add8_iff _ _ _

theorem oSbc_adcStructure_iff (v x r : Byte) :
    oSbc .adcStructure v x r = true ↔ x.msb = v.msb ∧ x.msb ≠ r.msb := by
  simp [oSbc, oAdd, msb_byte]

theorem oSbc_trueSigned_iff (v x r : Byte) :
    oSbc .trueSigned v x r = true ↔ v.msb ≠ x.msb ∧ v.msb ≠ r.msb := by
  simp [oSbc, msb_byte]

/-- The formula of `true_signed` on the difference of bytes is signed overflow: operands of one sign have a difference in
range, and one of two different signs is in range exactly when it keeps the sign of the first
(93_implementation_defined.md G3). -/
theorem oSbc_trueSigned_sub8_iff (v x : Byte) (bin : Bool) : oSbc .trueSigned v x (sub8 v x bin) = true ↔
    v.toInt - x.toInt - bin.toNat < -128 ∨ 127 < v.toInt - x.toInt - bin.toNat := by
  have hv := v.isLt
  have hx := x.isLt
  have hbin := bin.toNat_le
  have hr := sub8_toNat v x bin
  rw [oSbc_trueSigned_iff, toInt_byte, toInt_byte]
  simp only [BitVec.msb_eq_decide, ne_eq, decide_eq_decide]
  omega

/-- Settles O29: SBC's overflow function under each mode. -/
theorem sbcOverflowUnderEachMode : Obligations.SbcOverflowUnderEachMode := by
  unfold Obligations.SbcOverflowUnderEachMode
  rintro p addr s v r rfl rfl
  rw [executeWith_sbc_flagO]
  refine ⟨fun hp => ?_, fun hp => ?_⟩
  · rw [hp]
    exact oSbc_adcStructure_iff _ _ _
  · rw [hp]
    exact ⟨oSbc_trueSigned_iff _ _ _, oSbc_trueSigned_sub8_iff _ _ _⟩

/-! ### The cache (40_fetch_execute.md R121) -/

/-- Only ADC, SBC, LDA and AND write the cache. -/
theorem executeWith_cache_of_no_update (p : Config.Params) {i : Instr}
    (hi : ∀ w, i ≠ .adc w ∧ i ≠ .sbc w ∧ i ≠ .lda w ∧ i ≠ .and w) (s : State) :
    (executeWith p i s).cache = s.cache := by
  cases i with
  | adc w | sbc w | lda w | and w => simp at hi
  | eor w => rw [executeWith, eorOp_eq]
  | psh w => exact executeWith_psh_cache p w s
  | pop w => exact executeWith_cache_of_ignored p ⟨w, .inr (.inl rfl)⟩ s
  | jmp w | undefined b w => rfl

theorem operandValue_of_hit {s : State} {w : Addr} {v : Byte} (h : s.cache.lookup w = .hit v) : operandValue s w = v := by
  simp only [operandValue, h]

/-- Settles O31: each of the four is one update, of a result or of the operand, and a hit's update changes nothing. -/
theorem cachePolicyOfEachOperation : Obligations.CachePolicyOfEachOperation := by
  unfold Obligations.CachePolicyOfEachOperation
  intro i s
  refine ⟨_, exec_eq i s, ?_, ?_, fun addr hi => ?_, fun hi => executeWith_cache_of_no_update chip hi s⟩
  · rintro addr rfl
    obtain ⟨hcache, -⟩ := executeWith_adc_storesBack chip addr s
    exact ⟨by rw [hcache, Cache.lookup_update_self], hcache⟩
  · rintro addr rfl
    obtain ⟨hcache, -⟩ := executeWith_sbc_storesBack chip addr s
    exact ⟨by rw [hcache, Cache.lookup_update_self], hcache⟩
  · obtain ⟨hcache, -⟩ := executeWith_load chip hi s
    refine ⟨by rw [hcache, Cache.lookup_update_self], fun v hv => ?_⟩
    rw [hcache, operandValue_of_hit hv, Cache.update_of_hit hv]

end Sys2Proof.Machine

end

/-! # Proofs of the arithmetic statements (41_arithmetic.md R140, R141)

ADC and SBC differ in their result and in their overflow expression alone. What they share is said first, once for both:
the frame, the store in the data segment, the reports and the bits of STATUS that are kept. Then each result's flags are
read off its exact sum or difference. -/

section

namespace Sys2Proof.Machine

/-! ### What ADC and SBC share -/

/-- ADC and SBC keep every register but STATUS, and the phase. -/
theorem executeWith_arithmetic_frame (p : Config.Params) {i : Instr} {w : Addr} (hi : i = .adc w ∨ i = .sbc w)
    (s : State) : (executeWith p i s).a = s.a ∧ (executeWith p i s).sp = s.sp ∧ (executeWith p i s).pc = s.pc ∧
      (executeWith p i s).phase = s.phase := by
  rcases hi with rfl | rfl
  · rw [executeWith, adcOp_eq]
    exact ⟨rfl, rfl, rfl, rfl⟩
  · rw [executeWith, sbcOp_eq]
    exact ⟨rfl, rfl, rfl, rfl⟩

/-- No instruction writes a bit of STATUS other than N, O, Z and C (40_fetch_execute.md R120). -/
theorem executeWith_status_other (p : Config.Params) (i : Instr) (s : State) {j : Nat} (h0 : j ≠ 0) (h1 : j ≠ 1)
    (h5 : j ≠ 5) (h6 : j ≠ 6) : (executeWith p i s).status.getLsbD j = s.status.getLsbD j := by
  by_contra hne
  rcases flagWriter_of_status_changed hne with ⟨hj, -⟩ | ⟨hj, -⟩
  · exact hj.elim h0 h5
  · exact hj.elim h1 h6

/-- An instruction appends its reports to the log. -/
theorem executeWith_log (p : Config.Params) (i : Instr) (s : State) :
    (executeWith p i s).log = s.log ++ instrReports s i :=
  congrArg State.log (executeWith_withLog p i s s.log)

/-- What every address reads as after a write-back: only the data port's segment takes the byte. -/
theorem StoresBack.get {s t : State} {w : Addr} {v : Byte} (h : StoresBack s t w v) (hwf : s.mem.wf = true) (k : Nat) :
    t.mem.get k = if k = w.toNat ∧ 512 ≤ k ∧ k < 2048 then v else s.mem.get k := by
  obtain ⟨-, hmem⟩ := h
  rw [hmem, get_storeIn v hwf (seg_eq_data_iff w)]

/-! ### ADC (41_arithmetic.md R140) -/

theorem executeWith_adc_flagN (p : Config.Params) (w : Addr) (s : State) : (executeWith p (.adc w) s).flagN =
    decide (128 ≤ (s.a.toNat + (operandValue s w).toNat + s.flagC.toNat) % 256) := by
  rw [executeWith, adcOp_eq, ← add8_toNat, ← nOf_eq]
  exact writeNOZC_bitN _ _ _ _

theorem executeWith_adc_flagZ (p : Config.Params) (w : Addr) (s : State) : (executeWith p (.adc w) s).flagZ =
    decide ((s.a.toNat + (operandValue s w).toNat + s.flagC.toNat) % 256 = 0) := by
  rw [executeWith, adcOp_eq, ← add8_toNat, ← zOf_eq]
  exact writeNOZC_bitZ _ _ _ _

/-- Settles O18: the frame, the flags of the exact sum, and the write-back of `add8`, which is that sum as a byte. -/
theorem adcAddsIntoMemoryAndCache : Obligations.AdcAddsIntoMemoryAndCache := by
  unfold Obligations.AdcAddsIntoMemoryAndCache
  rintro s addr v sum hwf rfl rfl
  obtain ⟨ha, hsp, hpc, hphase⟩ := executeWith_arithmetic_frame chip (i := .adc addr) (.inl rfl) s
  have hstore := executeWith_adc_storesBack chip addr s
  refine ⟨_, exec_eq _ s, ha, hsp, hpc, hphase, executeWith_adc_flagN chip addr s, executeWith_adc_flagZ chip addr s,
    executeWith_adc_flagC chip addr s, ?overflow, fun j => executeWith_status_other chip _ s, hstore.get hwf, hstore.1,
    ?reports⟩
  case overflow =>
    rw [executeWith_adc_flagO, oAdd_iff, add8_toNat]
  case reports =>
    rw [executeWith_log, instrReports, writeReports_data, List.append_assoc]
    rfl

/-! ### SBC (41_arithmetic.md R141) -/

theorem executeWith_sbc_flagN (p : Config.Params) (w : Addr) (s : State) : (executeWith p (.sbc w) s).flagN =
    decide (128 ≤ ((operandValue s w).toNat - s.a.toNat - s.flagC.toNat : Int) % 256) := by
  rw [executeWith, sbcOp_eq, ← sub8_toNat]
  refine (writeNOZC_bitN _ _ _ _).trans ((nOf_eq _).trans ?_)
  rw [decide_eq_decide]
  omega

theorem executeWith_sbc_flagZ (p : Config.Params) (w : Addr) (s : State) : (executeWith p (.sbc w) s).flagZ =
    decide (((operandValue s w).toNat - s.a.toNat - s.flagC.toNat : Int) % 256 = 0) := by
  rw [executeWith, sbcOp_eq, ← sub8_toNat]
  refine (writeNOZC_bitZ _ _ _ _).trans ((zOf_eq _).trans ?_)
  rw [decide_eq_decide]
  omega

/-- SBC's overflow under `adc_structure`, in numbers: ADC's expression on A, the operand and the difference
(92_eei_decisions.md D4). -/
theorem executeWith_sbc_flagO_iff {p : Config.Params} (hp : p.sbcOMode = .adcStructure) (w : Addr) (s : State) :
    (executeWith p (.sbc w) s).flagO = true ↔ (s.a.toNat < 128 ↔ (operandValue s w).toNat < 128) ∧
      ¬ (s.a.toNat < 128 ↔ ((operandValue s w).toNat - s.a.toNat - s.flagC.toNat : Int) % 256 < 128) := by
  rw [executeWith_sbc_flagO, hp, oSbc, oAdd_iff, ← sub8_toNat]
  omega

/-- Settles O19: the frame, the flags of the exact difference, and the write-back of `sub8`, which is that difference as
a byte. -/
theorem sbcSubtractsIntoMemoryAndCache : Obligations.SbcSubtractsIntoMemoryAndCache := by
  unfold Obligations.SbcSubtractsIntoMemoryAndCache
  rintro s addr v diff hwf rfl rfl
  obtain ⟨ha, hsp, hpc, hphase⟩ := executeWith_arithmetic_frame chip (i := .sbc addr) (.inr rfl) s
  have hstore := executeWith_sbc_storesBack chip addr s
  refine ⟨_, exec_eq _ s, ha, hsp, hpc, hphase, executeWith_sbc_flagN chip addr s, executeWith_sbc_flagZ chip addr s,
    executeWith_sbc_flagC chip addr s, executeWith_sbc_flagO_iff rfl addr s,
    fun j => executeWith_status_other chip _ s, hstore.get hwf, hstore.1, ?reports⟩
  case reports =>
    rw [executeWith_log, instrReports, writeReports_data, List.append_assoc]
    rfl

end Sys2Proof.Machine

end

/-! # Proofs of the load and logic statements (42_load_logic.md R150 to R152)

LDA and AND share what they do to the cache, AND and EOR share their flag write, and all three share their reports and
what they leave alone. Each of these is said once; the statements differ in the new A alone. -/

section

namespace Sys2Proof.Machine

/-! ### What LDA, AND and EOR share -/

/-- LDA, AND and EOR keep SP, PC, the phase and memory. -/
theorem executeWith_loadLogic_frame (p : Config.Params) {i : Instr} {w : Addr}
    (hi : i = .lda w ∨ i = .and w ∨ i = .eor w) (s : State) :
    (executeWith p i s).sp = s.sp ∧ (executeWith p i s).pc = s.pc ∧ (executeWith p i s).phase = s.phase ∧
      (executeWith p i s).mem = s.mem := by
  rcases hi with rfl | rfl | rfl
  · rw [executeWith, ldaOp_eq]
    exact ⟨rfl, rfl, rfl, rfl⟩
  · rw [executeWith, andOp_eq]
    exact ⟨rfl, rfl, rfl, rfl⟩
  · rw [executeWith, eorOp_eq]
    exact ⟨rfl, rfl, rfl, rfl⟩

/-- A direct operand is reported exactly where it misses the cache out of range (20_memory.md R53, R65). -/
theorem operandReports_eq_ite (s : State) (w : Addr) : operandReports s w =
    if s.cache.lookup w = .miss ∧ 2048 ≤ w.toNat then [.oorRead w.toNat] else [] := by
  unfold operandReports
  cases s.cache.lookup w with
  | hit v => simp
  | miss => by_cases hw : w.toNat < 2048 <;> simp [readReports, Config.memSize, hw, ← Nat.not_lt]

theorem executeWith_loadLogic_log (p : Config.Params) {i : Instr} {w : Addr}
    (hi : i = .lda w ∨ i = .and w ∨ i = .eor w) (s : State) : (executeWith p i s).log =
      s.log ++ if s.cache.lookup w = .miss ∧ 2048 ≤ w.toNat then [.oorRead w.toNat] else [] := by
  have hreports : instrReports s i = operandReports s w := by
    rcases hi with rfl | rfl | rfl <;> rfl
  rw [executeWith_log, hreports, operandReports_eq_ite]

/-! ### The cache after LDA and AND (20_memory.md R65) -/

/-- LDA and AND leave their operand live: a hit keeps the cache as it is, a miss is one update. -/
theorem executeWith_load_cache (p : Config.Params) {i : Instr} {w : Addr} (hi : i = .lda w ∨ i = .and w) (s : State) :
    (executeWith p i s).cache.lookup w = .hit (operandValue s w) ∧
      (∀ v, s.cache.lookup w = .hit v → (executeWith p i s).cache = s.cache) ∧
      (s.cache.lookup w = .miss → (executeWith p i s).cache = s.cache.update w (operandValue s w)) := by
  obtain ⟨hcache, -⟩ := executeWith_load p hi s
  refine ⟨by rw [hcache, Cache.lookup_update_self], fun v hv => ?_, fun _ => hcache⟩
  rw [hcache, operandValue_of_hit hv, Cache.update_of_hit hv]

/-! ### The flags after AND and EOR (40_fetch_execute.md R120) -/

/-- AND and EOR write N and Z from the new A and keep every other bit of STATUS. -/
theorem executeWith_logic_flags (p : Config.Params) {i : Instr} {w : Addr} (hi : i = .and w ∨ i = .eor w) (s : State) :
    (executeWith p i s).flagN = (executeWith p i s).a.getLsbD 7 ∧
      ((executeWith p i s).flagZ = true ↔ (executeWith p i s).a = 0#8) ∧
      ∀ j, j ≠ 0 → j ≠ 5 → (executeWith p i s).status.getLsbD j = s.status.getLsbD j := by
  have hstatus : (executeWith p i s).status = writeNZ s.status (executeWith p i s).a := by
    rcases hi with rfl | rfl
    · rw [executeWith, andOp_eq]
    · rw [executeWith, eorOp_eq]
  refine ⟨?_, ?_, fun j h0 h5 => ?_⟩
  · rw [State.flagN, hstatus, writeNZ_bitN, nOf]
  · rw [State.flagZ, hstatus, writeNZ_bitZ, zOf, decide_eq_true_iff]
  · rw [hstatus]
    by_contra hne
    exact (writeNZ_changed hne).elim h0 h5

/-! ### LDA -/

theorem executeWith_lda_a (p : Config.Params) (w : Addr) (s : State) :
    (executeWith p (.lda w) s).a = operandValue s w := by
  rw [executeWith, ldaOp_eq]

theorem executeWith_lda_status (p : Config.Params) (w : Addr) (s : State) :
    (executeWith p (.lda w) s).status = s.status := by
  rw [executeWith, ldaOp_eq]

/-- Settles O20: the operand in A and in the cache, STATUS kept, and what the three operations share. -/
theorem ldaLoadsAndCaches : Obligations.LdaLoadsAndCaches := by
  unfold Obligations.LdaLoadsAndCaches
  intro s addr
  obtain ⟨hsp, hpc, hphase, hmem⟩ := executeWith_loadLogic_frame chip (i := .lda addr) (.inl rfl) s
  obtain ⟨hlive, hhit, hmiss⟩ := executeWith_load_cache chip (i := .lda addr) (.inl rfl) s
  exact ⟨_, exec_eq _ s, executeWith_lda_a chip addr s, executeWith_lda_status chip addr s, hsp, hpc, hphase, hmem,
    hlive, hhit, hmiss, executeWith_loadLogic_log chip (.inl rfl) s⟩

/-! ### AND -/

theorem executeWith_and_getLsbD_a (p : Config.Params) (w : Addr) (s : State) (j : Nat) :
    (executeWith p (.and w) s).a.getLsbD j = (s.a.getLsbD j && (operandValue s w).getLsbD j) := by
  rw [executeWith, andOp_eq, and8, BitVec.getLsbD_and]

/-- Settles O21: the new A bit by bit, its flags, the operand in the cache, and what the three operations share. -/
theorem andMasksTheAccumulator : Obligations.AndMasksTheAccumulator := by
  unfold Obligations.AndMasksTheAccumulator
  intro s addr
  obtain ⟨hsp, hpc, hphase, hmem⟩ := executeWith_loadLogic_frame chip (i := .and addr) (.inr (.inl rfl)) s
  obtain ⟨hlive, hhit, hmiss⟩ := executeWith_load_cache chip (i := .and addr) (.inr rfl) s
  obtain ⟨hN, hZ, hother⟩ := executeWith_logic_flags chip (i := .and addr) (.inl rfl) s
  exact ⟨_, exec_eq _ s, executeWith_and_getLsbD_a chip addr s, hN, hZ, hother, hsp, hpc, hphase, hmem,
    hlive, hhit, hmiss, executeWith_loadLogic_log chip (.inr (.inl rfl)) s⟩

/-! ### EOR -/

theorem executeWith_eor_getLsbD_a (p : Config.Params) (w : Addr) (s : State) (j : Nat) :
    (executeWith p (.eor w) s).a.getLsbD j = (s.a.getLsbD j ^^ (operandValue s w).getLsbD j) := by
  rw [executeWith, eorOp_eq, xor8, BitVec.getLsbD_xor]

/-- Settles O22: the encoder's bytes, the new A bit by bit, its flags, the cache kept, and what the three operations
share. -/
theorem eorTogglesTheAccumulator : Obligations.EorTogglesTheAccumulator := by
  unfold Obligations.EorTogglesTheAccumulator
  intro s addr
  obtain ⟨hsp, hpc, hphase, hmem⟩ := executeWith_loadLogic_frame chip (i := .eor addr) (.inr (.inr rfl)) s
  obtain ⟨hN, hZ, hother⟩ := executeWith_logic_flags chip (i := .eor addr) (.inr rfl) s
  have hcache := executeWith_cache_of_no_update chip (i := .eor addr) (fun _ => ⟨nofun, nofun, nofun, nofun⟩) s
  exact ⟨rfl, _, exec_eq _ s, executeWith_eor_getLsbD_a chip addr s, hN, hZ, hother, hsp, hpc, hphase, hmem, hcache,
    executeWith_loadLogic_log chip (.inr (.inr rfl)) s⟩

end Sys2Proof.Machine

end

/-! # Proof of the statement about control (43_control.md R160)

JMP is said once as the state it leaves and once as the state a whole step of the loop leaves; the target and the advance
meet in PC alone. -/

section

namespace Sys2Proof.Machine

/-- The advance in numbers: three addresses on, with the wrap of 92_eei_decisions.md D8. -/
theorem State.advance_pc_toNat (s : State) : s.advance.pc.toNat = (s.pc.toNat + 3) % 65536 :=
  BitVec.toNat_add s.pc Config.instrLen

theorem executeWith_jmp (p : Config.Params) (addr : Addr) (s : State) :
    executeWith p (.jmp addr) s = { s with pc := addr } := jmpOp_eq addr s

/-- A step that runs JMP: the fetch's reports, the target in PC, then the loop's advance (40_fetch_execute.md R112). -/
theorem step_of_jmp {s : State} {bound addr : Addr} (hp : s.phase = .running bound) (hlt : s.pc < bound)
    (hi : fetchedInstr chip.opcodeDecode s = .ok (.jmp addr)) :
    step s = .next { s.fetched with pc := addr }.advance := by
  rw [step_of_decoded hp hlt hi, executeWith_jmp]

/-- Settles O23: the state JMP leaves, then the state its step leaves, where the advance starts from the target. -/
theorem jmpSetsPcThenTheLoopAdvances : Obligations.JmpSetsPcThenTheLoopAdvances := by
  unfold Obligations.JmpSetsPcThenTheLoopAdvances
  intro s addr
  refine ⟨?operation, fun bound hp hlt hi => ?inTheLoop⟩
  case operation => rw [exec_eq, executeWith_jmp]
  case inTheLoop =>
    exact ⟨_, step_of_jmp hp hlt hi, State.advance_pc_toNat _, rfl, rfl, rfl, rfl, rfl, rfl, rfl⟩

end Sys2Proof.Machine

end

/-! # Proofs of the stack statements (44_stack.md R170, R171)

PSH and POP are each said once as the state they leave; SP in numbers wraps both ways (92_eei_decisions.md D7). The
round trip turns on one fact: a POP with SP one above an address in range reads that address and reports nothing. -/

section

namespace Sys2Proof.Machine

/-! ### PSH -/

theorem executeWith_psh (p : Config.Params) (w : Addr) (s : State) : executeWith p (.psh w) s =
    { s with mem := if seg s.sp = .stack then s.mem.set s.sp.toNat s.a else s.mem,
             log := s.log ++ writeReports .stack s.sp s.a, sp := s.sp + 1#16 } := pshOp_eq s

/-- PSH keeps A, STATUS, PC and the phase. -/
theorem executeWith_psh_frame (p : Config.Params) (w : Addr) (s : State) :
    (executeWith p (.psh w) s).a = s.a ∧ (executeWith p (.psh w) s).status = s.status ∧
      (executeWith p (.psh w) s).pc = s.pc ∧ (executeWith p (.psh w) s).phase = s.phase := by
  rw [executeWith_psh]
  exact ⟨rfl, rfl, rfl, rfl⟩

theorem executeWith_psh_sp (p : Config.Params) (w : Addr) (s : State) :
    (executeWith p (.psh w) s).sp = s.sp + 1#16 := by
  rw [executeWith_psh]

theorem executeWith_psh_log (p : Config.Params) (w : Addr) (s : State) : (executeWith p (.psh w) s).log =
    s.log ++ (if 2048 ≤ s.sp.toNat then [.oorWrite .stack s.sp s.a]
      else if s.sp.toNat < 256 ∨ 512 ≤ s.sp.toNat then [.segWrite .stack s.sp s.a] else []) := by
  rw [executeWith_psh, writeReports_stack]

/-- A push inside the stack segment is not reported. -/
theorem executeWith_psh_log_inSegment (p : Config.Params) (w : Addr) {s : State} (hlo : 256 ≤ s.sp.toNat)
    (hhi : s.sp.toNat < 512) : (executeWith p (.psh w) s).log = s.log := by
  rw [executeWith_psh_log, if_neg (by omega), if_neg (by omega), List.append_nil]

/-- Settles O24: the byte at SP in the stack segment only, the report elsewhere, SP + 1 always, and the frame. -/
theorem pshWritesAtSpAndMovesItUp : Obligations.PshWritesAtSpAndMovesItUp := by
  unfold Obligations.PshWritesAtSpAndMovesItUp
  intro s w hwf
  obtain ⟨ha, hstatus, hpc, hphase⟩ := executeWith_psh_frame chip w s
  refine ⟨_, exec_eq _ s, ?sp, ha, hstatus, executeWith_psh_cache chip w s, hpc, hphase,
    executeWith_psh_get chip w hwf, executeWith_psh_log chip w s⟩
  case sp =>
    rw [executeWith_psh_sp]
    exact BitVec.toNat_add s.sp 1#16

/-! ### POP -/

theorem executeWith_pop (p : Config.Params) (w : Addr) (s : State) : executeWith p (.pop w) s =
    { s with a := readValue s.mem (s.sp - 1#16).toNat, sp := s.sp - 1#16,
             log := s.log ++ readReports (s.sp - 1#16).toNat } := popOp_eq s

/-- SP moved down, in numbers, with the wrap of 92_eei_decisions.md D7. -/
theorem sp_sub_one_toNat (sp : Addr) : (sp - 1#16).toNat = (sp.toNat + 65535) % 65536 := by
  rw [BitVec.toNat_sub, Nat.add_comm]
  rfl

/-- Settles O25: the read port's byte and report at the new SP, which are read off memory alone. -/
theorem popReadsMemoryBelowSp : Obligations.PopReadsMemoryBelowSp := by
  unfold Obligations.PopReadsMemoryBelowSp
  intro s w
  exact ⟨_, (exec_eq _ s).trans (congrArg _ (executeWith_pop chip w s)), sp_sub_one_toNat s.sp, rfl, rfl, rfl, rfl,
    rfl, rfl, rfl⟩

/-! ### PSH then POP -/

/-- A pop that moves SP down to an address in range brings the byte there and reports nothing. -/
theorem executeWith_pop_above (p : Config.Params) (w : Addr) {s : State} {sp : Addr} (hsp : s.sp = sp + 1#16)
    (hr : sp.toNat < 2048) : executeWith p (.pop w) s = { s with a := s.mem.get sp.toNat, sp := sp } := by
  have hdown : s.sp - 1#16 = sp := by rw [hsp, BitVec.add_sub_cancel]
  have hreports : readReports sp.toNat = [] := if_pos hr
  rw [executeWith_pop, hdown, readValue_inRange s.mem hr, hreports, List.append_nil]

/-- Settles O34: the pop comes back down to the address of the push, where memory, which neither A nor the cache touches
between, still holds the pushed byte. -/
theorem pushThenPopRoundTrip : Obligations.PushThenPopRoundTrip := by
  unfold Obligations.PushThenPopRoundTrip
  intro s w w' x c hwf hlo hhi
  have hpop := executeWith_pop_above chip w' (s := { executeWith chip (.psh w) s with a := x, cache := c })
    (executeWith_psh_sp chip w s) (by omega)
  refine ⟨_, _, exec_eq _ s, (exec_eq _ _).trans (congrArg _ hpop), ?byte, rfl, ?log⟩
  case byte => exact (executeWith_psh_get chip w hwf _).trans (if_pos ⟨rfl, hlo, hhi⟩)
  case log => exact executeWith_psh_log_inSegment chip w hlo hhi

end Sys2Proof.Machine

end

/-! # Proofs of the statements about undefined opcodes (45_undefined.md R180)

Both rest on one lemma, the step that fetches a byte with no operation: the fetch's reports, the undefined opcode's, and
the advance. In range the fetch reports nothing. Past the end of memory each of its three reads reports and brings 0xFF,
which is such a byte. -/

section

namespace Sys2Proof.Machine

theorem executeWith_undefined (p : Config.Params) (opcode : Byte) (w : Addr) (s : State) :
    executeWith p (.undefined opcode w) s = { s with log := s.log ++ [.undefOpcode s.pc opcode] } :=
  undefinedOp_eq opcode s

/-- At the default `opcode_decode` (92_eei_decisions.md D2) a byte from 8 on is undefined, whatever follows it. -/
theorem fetchedInstr_of_undefined {s : State} (hop : 8 ≤ (readValue s.mem s.pc.toNat).toNat) :
    ∃ w : Addr, fetchedInstr chip.opcodeDecode s = .ok (.undefined (readValue s.mem s.pc.toNat) w) :=
  ⟨_, decodeBytes_of_undefinedByte ((undefinedByte_fullByte_iff _).2 hop) _ _⟩

/-- A step that fetches an undefined opcode, wherever PC is below the bound (40_fetch_execute.md R112). -/
theorem step_of_undefined {s : State} {bound : Addr} {opcode : Byte} (hp : s.phase = .running bound)
    (hlt : s.pc < bound) (hread : readValue s.mem s.pc.toNat = opcode) (hop : 8 ≤ opcode.toNat) :
    step s = .next { s with pc := s.pc + 3#16,
                            log := s.log ++ fetchReports s.pc ++ [.undefOpcode s.pc opcode] } := by
  subst hread
  obtain ⟨w, hi⟩ := fetchedInstr_of_undefined hop
  rw [step_of_decoded hp hlt hi, executeWith_undefined]
  rfl

/-- Settles O26: the state the operation leaves, then the step's, whose fetch in range brings the byte of memory and
makes no report of its own. -/
theorem undefinedOpcodeReportsAndDoesNothing : Obligations.UndefinedOpcodeReportsAndDoesNothing := by
  unfold Obligations.UndefinedOpcodeReportsAndDoesNothing
  intro s opcode ignored
  refine ⟨?operation, fun bound hp hlt hr hmem hop => ?inTheLoop⟩
  case operation => rw [exec_eq, executeWith_undefined]
  case inTheLoop =>
    have hread : readValue s.mem s.pc.toNat = opcode := (readValue_inRange s.mem (by omega)).trans hmem
    rw [step_of_undefined hp hlt hread hop, fetchReports_inRange hr, List.append_nil]

/-! ### Past the end of memory (70_reset_and_hazards.md R230) -/

theorem readValue_outOfRange (m : Memory) {k : Nat} (h : 2048 ≤ k) : readValue m k = 0xFF#8 := if_neg (Nat.not_lt.2 h)

theorem readReports_outOfRange {k : Nat} (h : 2048 ≤ k) : readReports k = [.oorRead k] := if_neg (Nat.not_lt.2 h)

/-- A fetch past the end of memory reports each of its three reads, at exact addresses (92_eei_decisions.md D9). -/
theorem fetchReports_outOfRange {pc : Addr} (h : 2048 ≤ pc.toNat) :
    fetchReports pc = [.oorRead pc.toNat, .oorRead (pc.toNat + 1), .oorRead (pc.toNat + 2)] := by
  rw [fetchReports, readReports_outOfRange h, readReports_outOfRange (Nat.le_add_right_of_le h),
    readReports_outOfRange (Nat.le_add_right_of_le h)]
  rfl

/-- Settles O40: the step of an undefined opcode, which the byte 0xFF of an out-of-range read is. -/
theorem stepPastMemoryIsAReportedNop : Obligations.StepPastMemoryIsAReportedNop := by
  unfold Obligations.StepPastMemoryIsAReportedNop
  intro s bound hp hlt hpast
  rw [step_of_undefined hp hlt (readValue_outOfRange s.mem hpast) (by decide), fetchReports_outOfRange hpast,
    List.append_assoc]
  rfl

end Sys2Proof.Machine

end

/-! # Proofs of the statements about exceptions (60_exceptions.md R200 to R203)

At the default `opcode_decode` every fetched word has a meaning and every meaning answers a next state, so every step
does, and by induction every run. What the step of a decoded instruction leaves in PC and in the log is then read off the
instruction's own effect, between the fetch and the advance. -/

section

namespace Sys2Proof.Machine

/-! ### No condition stops the core (60_exceptions.md R200) -/

/-- At the default `opcode_decode` (92_eei_decisions.md D2) whatever PC points at decodes. -/
theorem exists_fetchedInstr (s : State) : ∃ i : Instr, fetchedInstr chip.opcodeDecode s = .ok i :=
  decodeBytes_ok (by decide) _ _ _

/-- Every state has a next one: itself in Idle, the Idle state at the bound, the instruction's below it. -/
theorem exists_step (s : State) : ∃ t : State, step s = .next t := by
  cases hp : s.phase with
  | idle => exact ⟨s, step_of_idle hp⟩
  | running bound =>
    by_cases hlt : s.pc < bound
    · obtain ⟨t, ht, -⟩ := step_of_lt hp hlt
      exact ⟨t, ht⟩
    · exact ⟨_, step_of_not_lt hp hlt⟩

theorem safeRun (s : State) : SafeRun s := by
  intro k
  induction k generalizing s with
  | zero => exact ⟨s, rfl⟩
  | succ k ih =>
    obtain ⟨u, hu⟩ := exists_step s
    rw [run_succ hu]
    exact ih u

/-- After JMP the advance starts from the target (40_fetch_execute.md R123). -/
theorem executeWith_jmp_advance_pc (p : Config.Params) (w : Addr) (s : State) :
    (executeWith p (.jmp w) s).advance.pc = w + 3#16 := by
  rw [State.advance_pc, executeWith_jmp]
  rfl

/-- After any other instruction it starts from the PC of the fetch (40_fetch_execute.md R123). -/
theorem executeWith_advance_pc_of_ne_jmp (p : Config.Params) {i : Instr} (hi : ∀ w, i ≠ .jmp w) (s : State) :
    (executeWith p i s).advance.pc = s.pc + 3#16 := by
  rw [State.advance_pc, executeWith_pc_of_ne_jmp p hi]
  rfl

/-- Settles O38: a step is total, so a run of any length is; a step below the bound is the decoded instruction's, which
keeps the phase and leaves PC to the advance, JMP alone having moved it first. -/
theorem noConditionStopsTheCore : Obligations.NoConditionStopsTheCore := by
  unfold Obligations.NoConditionStopsTheCore
  refine ⟨safeRun, fun s bound hp hlt => ?_⟩
  obtain ⟨i, hi⟩ := exists_fetchedInstr s
  refine ⟨i, _, hi, step_of_decoded hp hlt hi, executeWith_phase chip i s.fetched, ?jmp, fun hne => ?other⟩
  case jmp =>
    rintro w rfl
    exact executeWith_jmp_advance_pc chip w s.fetched
  case other => exact executeWith_advance_pc_of_ne_jmp chip hne s.fetched

/-! ### The reports of a step (60_exceptions.md R203) -/

/-- What an instruction reports does not depend on the fetch's reports. -/
theorem instrReports_fetched (s : State) (i : Instr) : instrReports s.fetched i = instrReports s i := by
  cases i <;> rfl

/-- A whole step's log: the old one, the fetch's reports, the instruction's. -/
theorem fetched_executeWith_advance_log (p : Config.Params) (i : Instr) (s : State) :
    (executeWith p i s.fetched).advance.log = s.log ++ fetchReports s.pc ++ instrReports s i := by
  rw [State.advance_log, executeWith_log, instrReports_fetched]
  rfl

/-- Settles O41: the step of the decoded instruction, whose reports `instrReports` lists in R203's order. -/
theorem stepReportsInPseudocodeOrder : Obligations.StepReportsInPseudocodeOrder := by
  unfold Obligations.StepReportsInPseudocodeOrder
  intro s bound i hp hlt hi
  refine ⟨_, step_of_decoded hp hlt hi, (fetched_executeWith_advance_log chip i s).trans ?_⟩
  cases i <;> rfl

end Sys2Proof.Machine

end

/-! # Proofs of the statements about reset and hazards (70_reset_and_hazards.md R220, R228)

RESET is one value, so its statements are read off it. That LDA after ADC loads the sum is two facts: ADC leaves its sum
live in the cache whatever the data port answered, and an LDA that hits changes A alone. -/

section

namespace Sys2Proof.Machine

/-! ### Reset (70_reset_and_hazards.md R220) -/

/-- RESET is answered in every phase, also during a run (92_eei_decisions.md D21). -/
theorem hostCommand_reset (s : State) : hostCommand .reset s = .next (State.reset, .done) := by
  simp [hostCommand, hostCommandBy, hostAction]

/-- After reset every address holds the reset content, listed or not (10_state.md R34). -/
theorem reset_mem_get (k : Nat) : State.reset.mem.get k = 0x00#8 := rfl

/-- Settles O6: RESET answers `State.reset`, and each value is a field of it. -/
theorem resetEstablishesTheResetState : Obligations.ResetEstablishesTheResetState := by
  unfold Obligations.ResetEstablishesTheResetState
  intro s
  exact ⟨_, hostCommand_reset s, rfl, fun k _ => reset_mem_get k, rfl, rfl, rfl, rfl, rfl, rfl, rfl, rfl, rfl⟩

/-- Settles O44: the base case of the induction over reachable states. -/
theorem resetStateMeetsTheInvariant : Obligations.ResetStateMeetsTheInvariant := reset_inv

/-! ### The write target of ADC (70_reset_and_hazards.md R228) -/

theorem operandReports_of_hit {s : State} {w : Addr} {v : Byte} (h : s.cache.lookup w = .hit v) :
    operandReports s w = [] := by
  simp only [operandReports, h]

/-- An LDA that hits changes A alone (42_load_logic.md R150). -/
theorem executeWith_lda_of_hit (p : Config.Params) {s : State} {w : Addr} {v : Byte} (h : s.cache.lookup w = .hit v) :
    executeWith p (.lda w) s = s.setA v := by
  rw [executeWith, ldaOp_eq, operandValue_of_hit h, Cache.update_of_hit h, operandReports_of_hit h, List.append_nil]
  rfl

/-- After ADC its address hits with the sum, in every segment (92_eei_decisions.md D6). -/
theorem executeWith_adc_lookup (p : Config.Params) (w : Addr) (s : State) :
    (executeWith p (.adc w) s).cache.lookup w = .hit (add8 s.a (operandValue s w) s.flagC) := by
  obtain ⟨hcache, -⟩ := executeWith_adc_storesBack p w s
  rw [hcache, Cache.lookup_update_self]

/-- Settles O33: ADC leaves its sum live, so the LDA hits: A gets the sum, and nothing is reported. -/
theorem ldaAfterAdcLoadsTheSum : Obligations.LdaAfterAdcLoadsTheSum := by
  unfold Obligations.LdaAfterAdcLoadsTheSum
  intro s addr
  have hlda := executeWith_lda_of_hit chip (executeWith_adc_lookup chip addr s)
  refine ⟨_, _, exec_eq _ s, (exec_eq _ _).trans (congrArg _ hlda), ?sum, State.setA_log _ _⟩
  case sum => rw [State.setA_a, add8]

end Sys2Proof.Machine

end
